-- ==== Sys2Proof/Word.lean ====
section
/-! DEFINITION. The machine's words and byte groups: `Byte`, `Word` (00_scope.md R8), and the 16-byte block as four
4-byte words (R8, R9). A block has no numeric value (R8: "it is never added or compared as a 128-bit integer"), so it is a
structure of bytes and not one bit vector. -/

namespace Sys2Proof

/-- A byte, bit 0 least significant (R8). -/
abbrev Byte := BitVec 8

/-- What one access to a host register carries: 32 bits, unsigned (R8, R27). -/
abbrev Word := BitVec 32

/-- A word of a block: four consecutive bytes, `b0` first (R8). It is also one column of the state array, `b0` in row 0 (R10). -/
structure Col where
  b0 : Byte
  b1 : Byte
  b2 : Byte
  b3 : Byte
  deriving DecidableEq, Repr

/-- A block: sixteen bytes as words `W_0 .. W_3`; byte `4c + j` of the block is byte `j` of word `c` (R8). -/
structure Block where
  c0 : Col
  c1 : Col
  c2 : Col
  c3 : Col
  deriving DecidableEq, Repr

/-- Four zero bytes. -/
def Col.zero : Col := ⟨0, 0, 0, 0⟩

/-- The block of sixteen zero bytes. -/
def Block.zero : Block := ⟨Col.zero, Col.zero, Col.zero, Col.zero⟩

end Sys2Proof
end

