-- ==== Sys2Proof/Syntax.lean ====
section
/-! DEFINITION. The command set: one constructor per row of spec/opcode_table.json (30_encoding.md R72). -/

namespace Sys2Proof

/-- The four commands. None has an operand in its word (R70: "Operands are not in the word; they are in the operand
registers"). -/
inductive Instr where
  /-- KEYLOAD, `AesKey::create(raw_key)` (R125). -/
  | keyload
  /-- ENCRYPT, AES-128 CBC encryption (R143). -/
  | encrypt
  /-- DECRYPT, AES-128 CBC decryption (R153). -/
  | decrypt
  /-- KEYDISCARD, the end of an AesKey's life (R129). -/
  | keydiscard
  deriving DecidableEq, Repr

end Sys2Proof
end

