-- ==== Sys2Proof/WellFormed.lean ====
section
/-! DEFINITION. Well-formedness. A command carries no operand field (30_encoding.md R73), so as syntax every `Instr` is well
formed; what can be ill formed is a command WORD: it must have `RSV` = 0 and an `OPC` the opcode map lists (R71, R72, R74). -/

namespace Sys2Proof

/-- Every command is well formed: it has no field that could be out of range (R73). -/
def Instr.wellFormed : Instr → Bool
  | .keyload => true
  | .encrypt => true
  | .decrypt => true
  | .keydiscard => true

/-- `RSV` of a legal command word is zero (R71). -/
def rsvZero (w : Word) : Bool := w.extractLsb' 8 24 == 0#24

/-- `OPC` of a legal command word is one of the four of the opcode map (R72). -/
def opcListed (w : Word) : Bool :=
  [0x01#8, 0x02#8, 0x03#8, 0x04#8].contains (w.extractLsb' 0 8)

/-- A legal command word (R74 says every other word is illegal). -/
def wellFormedWord (w : Word) : Bool := rsvZero w && opcListed w

end Sys2Proof
end

