-- ==== Sys2Proof/Decode.lean ====
section
/-! DEFINITION. The decoder, total on every 32-bit word and rejecting by name, and the encoder beside it
(30_encoding.md R70 to R75, R77). A command word is the VALUE written to the 32-bit register CMD: it has no byte order of its
own (20_memory.md R50), so the decoder reads the value. -/

namespace Sys2Proof

/-- Why a word is no command (R74). -/
inductive DecodeError where
  /-- `RSV` (bits 31:8) is not zero. -/
  | reservedBits
  /-- `OPC` (bits 7:0) is not in the opcode map. -/
  | unknownOpcode
  deriving DecidableEq, Repr

/-- Field `OPC` = `w[7:0]` (R71). -/
def opcField (w : Word) : Byte := w.extractLsb' 0 8

/-- Field `RSV` = `w[31:8]` (R71). -/
def rsvField (w : Word) : BitVec 24 := w.extractLsb' 8 24

/-- The command a word encodes (R72, R77). -/
def decode (w : Word) : Except DecodeError Instr :=
  if rsvField w ≠ 0 then .error .reservedBits
  else if opcField w = 0x01 then .ok .keyload
  else if opcField w = 0x02 then .ok .encrypt
  else if opcField w = 0x03 then .ok .decrypt
  else if opcField w = 0x04 then .ok .keydiscard
  else .error .unknownOpcode

/-- The `OPC` of a command (R72). -/
def opcode : Instr → Byte
  | .keyload => 0x01
  | .encrypt => 0x02
  | .decrypt => 0x03
  | .keydiscard => 0x04

/-- The command word: `RSV` = 0 above `OPC` (R71). -/
def encode (i : Instr) : Word := 0#24 ++ opcode i

/-- The instruction the decoder reads from a word given as `nbits` numbered bits, bit 0 least significant, as
spec/opcode_table.json numbers them. -/
def decodeTableWord (nbits w : Nat) : Option Instr :=
  if nbits ≤ 32 ∧ w < 2 ^ nbits then (decode (BitVec.ofNat 32 w)).toOption else none

end Sys2Proof
end

