-- ==== Sys2Proof/Config.lean ====
section
/-! DEFINITION. Constants of the engine (00_scope.md R6, R7) and the model's sources of free values. -/

namespace Sys2Proof.Config

/-- `BLOCK` and `KEYBYTES`: 16 bytes (R6). -/
def blockBytes : Nat := 16

/-- `NSLOT`: the store has 22 slots (R6). -/
def slots : Nat := 22

/-- `KSBYTES`: 352 = 22 x 16 bytes of schedule (R6). -/
def scheduleBytes : Nat := slots * blockBytes

/-- The spec's default for its OPEN parameter `AW` (R7, 92_eei_decisions.md D3). It is the value `State.reset` holds; the machine
takes `AW` from the state, `Machine.Memory.aw` (log 1). -/
def defaultAddressBits : Nat := 32

/-- The size of the register space in bytes (R35). -/
def registerSpace : Nat := 0x400

/-- The free values: what the spec leaves unspecified (93_implementation_defined.md U2, U3, U7, U10). No body, so nothing can
be proved of a value of it; the step applies it to `State.freeCount` and advances that counter (log 9). Safe. -/
opaque freeByte : Nat → Byte

/-- Free numbers, drawn in the same way where what is unspecified is not a byte (U7, U10; log 9). Safe. -/
opaque freeNat : Nat → Nat

end Sys2Proof.Config
end

