-- ==== Sys2Proof/Machine/State.lean ====
section
/-! DEFINITION. The state of the engine and of what it is connected to, as plain data (10_state.md), the reasons a step can
stop, and the state after reset (R37). -/

namespace Sys2Proof.Machine

/-- The key-variant tag `KVAR` (R24). The codes 2 and 3 of KEYVAR are reserved and never produced, so they are no value. -/
inductive KVar where
  | none
  | aes128
  deriving DecidableEq, Repr

/-- The error kinds (60_exceptions.md R161). `invalidInput` keeps its reserved code and is never raised. -/
inductive ErrorKind where
  | unsupportedKeySize
  | emptyInput
  | blockAlignment
  | bufferTooSmall
  | unsupportedOperation
  | invalidInput
  | illegalCommand
  deriving DecidableEq, Repr

/-- Buffer identities (R162). -/
inductive BufId where
  | none
  | key
  | iv
  | src
  | dst
  deriving DecidableEq, Repr

/-- What `raise <Kind>(buf, align)` is given (R166); `-` is `BufId.none` and alignment 0. -/
structure CommandError where
  kind  : ErrorKind
  buf   : BufId
  align : Byte
  deriving DecidableEq, Repr

/-- What stands at a range of MEM's addresses. -/
inductive RegionKind where
  /-- Ordinary memory (20_memory.md R57: "The engine's reads are idempotent and assume ordinary memory"). -/
  | ordinary
  /-- A location with side effects, or the engine's own registers mapped into MEM (R57, R58). -/
  | device
  deriving DecidableEq, Repr

/-- Addresses `base .. base + size - 1` of the platform's memory map (R51). -/
structure Region where
  base : Nat
  size : Nat
  kind : RegionKind
  deriving DecidableEq, Repr

/-- The buffer memory MEM, a partial map from `AW`-bit addresses to bytes (R51). `aw` is `AW`, the width of an address and of a
length, and `map` is the map's domain; both are the platform's parameters (D3, D7; logs 1, 4) and no operation changes them. An
address below `2^aw` is present if a region holds it, and the first region that does says what is there. `cells` holds the
contents in canonical form: addresses strictly rising, no cell equal to what an unlisted address reads as (`Memory.unlisted`). -/
structure Memory where
  aw    : Nat
  map   : List Region
  cells : List Host.Cell
  deriving DecidableEq, Repr

/-- One memory access of the engine, 16 bytes from `addr` (R52, R53: "n = 16 always"). -/
inductive Access where
  | read  (addr : Nat)
  | write (addr : Nat)
  deriving DecidableEq, Repr

/-- The width of a host access to the register space (R38). -/
inductive Width where
  | byte
  | half
  | word
  deriving DecidableEq, Repr

/-- One operation of the host or the platform (R39), performed by one step. -/
inductive HostOp where
  /-- A write of the low bits of `value` to a register-space offset. -/
  | regWrite (width : Width) (offset : Nat) (value : Word)
  /-- A read of a register-space offset. -/
  | regRead (width : Width) (offset : Nat)
  /-- The host stores one byte of MEM. -/
  | memWrite (addr : Nat) (value : Byte)
  /-- The host loads one byte of MEM. -/
  | memRead (addr : Nat)
  /-- The platform asserts reset between commands (70_reset_and_hazards.md R190). -/
  | reset
  /-- A write of `value` to CMD, and the platform asserts reset while the command it starts runs (R192). -/
  | commandCutByReset (value : Word)
  deriving DecidableEq, Repr

/-- Where the machine stops with a fault. -/
inductive Fault where
  /-- Raised by a host load or store of MEM (`HostOp.memRead`, `HostOp.memWrite`) at an address that the memory map does not
  hold or that is no `AW`-bit address (R51: MEM is a partial map). Safe: nothing is claimed of it (log 13). -/
  | hostAddressAbsent
  deriving DecidableEq, Repr

/-- Where the model gives no meaning. -/
inductive Refusal where
  /-- An instruction the model has no meaning for; no arm of `exec` answers it. Safe. -/
  | notModelled (mnemonic : String)
  /-- Raised by KEYLOAD, ENCRYPT and DECRYPT when a buffer range passes 2^AW (R51; 93_implementation_defined.md U5: refuse).
  Safe (log 6). -/
  | rangeWraps
  /-- Raised by KEYLOAD, ENCRYPT and DECRYPT when a byte of a buffer range is not present in MEM (R51, U4: refuse). Safe (log 6). -/
  | rangeAbsent
  /-- Raised by KEYLOAD, ENCRYPT and DECRYPT when a byte of a buffer range is a device's, or the engine's own registers
  (R57, R58, U4: refuse). Safe (log 6). -/
  | rangeDevice
  /-- Raised by a host register access of a shape outside R38 (U6: refuse). Safe (log 12). -/
  | accessShape
  /-- Raised by a host register access at an offset beyond the register space's 0x400 bytes (R35). Safe (log 12). -/
  | outsideRegisterSpace
  /-- Raised by a host load or store of MEM at a device's address, whose behaviour the spec does not give. Safe (log 13). -/
  | hostDeviceAccess
  deriving DecidableEq, Repr

/-- The whole state. The fields down to `mem` are the spec's; the last four are the model's own. An operand register is `AW` bits
wide (R29) and the block index `AW - 4` (R26), and `AW` is a parameter of the platform, `mem.aw`: each is a number, and
`State.FitsAw` of Safety.lean says that it stays within its width (log 1). -/
structure State where
  /-- The round-key store `RK[0..21]` (R20). -/
  rk        : Vector Block 22
  /-- The key-variant tag (R24). -/
  kvar      : KVar
  /-- Working register `ST` (R25). -/
  st        : Block
  /-- Working register `FB`, the feedback (R25). -/
  fb        : Block
  /-- Working register `LCB`, the cached ciphertext block (R25). -/
  lcb       : Block
  /-- The sequencer's block index `i`: the blocks already written (R26). -/
  seqI      : Nat
  /-- The sequencer's round index `r` (R26). -/
  seqR      : BitVec 4
  /-- `CMD` (R28). -/
  cmd       : Word
  /-- `STATUS` (R31). -/
  status    : Word
  /-- `ERRINFO` (R32). -/
  errInfo   : Word
  /-- `KEY_ADDR` (R29). -/
  keyAddr   : Nat
  /-- `KEY_LEN` (R29). -/
  keyLen    : Nat
  /-- `IV_ADDR` (R29). -/
  ivAddr    : Nat
  /-- `IV_LEN` (R29). -/
  ivLen     : Nat
  /-- `SRC_ADDR` (R29). -/
  srcAddr   : Nat
  /-- `SRC_LEN` (R29). -/
  srcLen    : Nat
  /-- `DST_ADDR` (R29). -/
  dstAddr   : Nat
  /-- `DST_LEN` (R29). -/
  dstLen    : Nat
  /-- The buffer memory (20_memory.md R51). -/
  mem       : Memory
  /-- The model's own: host operations not yet performed, oldest first (log 2). -/
  pending   : List HostOp
  /-- The model's own: what the last host read returned (log 3). -/
  readData  : Word
  /-- The model's own: the engine's memory accesses so far, oldest first (R56, R61; log 16). -/
  accesses  : List Access
  /-- The model's own: where the next free value is drawn (log 9). -/
  freeCount : Nat
  deriving DecidableEq, Repr

/-- The state after reset (R37, R191). The store and the working registers, which the spec leaves unspecified, are zero:
DESIGN CHOICE, unsafe (logs 7, 8). `AW` is the spec's default 32 (log 1). The whole address space is present as ordinary memory with
nothing listed: DESIGN CHOICE, unsafe (logs 4, 5). -/
def State.reset : State where
  rk        := Vector.replicate 22 Block.zero
  kvar      := .none
  st        := Block.zero
  fb        := Block.zero
  lcb       := Block.zero
  seqI      := 0
  seqR      := 0
  cmd       := 0
  status    := 0
  errInfo   := 0
  keyAddr   := 0
  keyLen    := 0
  ivAddr    := 0
  ivLen     := 0
  srcAddr   := 0
  srcLen    := 0
  dstAddr   := 0
  dstLen    := 0
  mem       := { aw := Config.defaultAddressBits
                 map := [{ base := 0, size := 2 ^ Config.defaultAddressBits, kind := .ordinary }]
                 cells := [] }
  pending   := []
  readData  := 0
  accesses  := []
  freeCount := 0

end Sys2Proof.Machine
end

