-- ==== Sys2Proof/Machine/Flags.lean ====
section
/-! DEFINITION. The flags and status words: the codes of ERRINFO (60_exceptions.md R161, R162), the values of STATUS and
ERRINFO (10_state.md R31, R32), their fields, and KEYVAR (R30). The engine has no arithmetic condition codes (R34). -/

namespace Sys2Proof.Machine

/-- `ERRINFO.CODE` of a kind (R161). -/
def ErrorKind.code : ErrorKind → BitVec 4
  | .unsupportedKeySize => 1
  | .emptyInput => 2
  | .blockAlignment => 3
  | .bufferTooSmall => 4
  | .unsupportedOperation => 5
  | .invalidInput => 6
  | .illegalCommand => 7

/-- `ERRINFO.BUF` of a buffer (R162). -/
def BufId.code : BufId → BitVec 4
  | .none => 0
  | .key => 1
  | .iv => 2
  | .src => 3
  | .dst => 4

/-- `ERRINFO` for a failure: `ALIGN` in bits 15:8, `BUF` in 7:4, `CODE` in 3:0, zero above (R32, R166). -/
def CommandError.errInfo (e : CommandError) : Word := 0#16 ++ e.align ++ e.buf.code ++ e.kind.code

/-- `STATUS` with the fields `DONE` (bit 0) and `ERR` (bit 1), zero above (R31). -/
def statusWord (done err : Bool) : Word := 0#30 ++ BitVec.ofBool err ++ BitVec.ofBool done

/-- `KEYVAR`: 0 for `NONE`, 1 for `AES128` (R30). -/
def KVar.code : KVar → Word
  | .none => 0
  | .aes128 => 1

/-- Field `STATUS.DONE` (R31). -/
def State.done (s : State) : Bool := s.status.getLsbD 0

/-- Field `STATUS.ERR` (R31). -/
def State.err (s : State) : Bool := s.status.getLsbD 1

/-- Field `ERRINFO.CODE` (R32). -/
def State.errCode (s : State) : BitVec 4 := s.errInfo.extractLsb' 0 4

/-- Field `ERRINFO.BUF` (R32). -/
def State.errBuf (s : State) : BitVec 4 := s.errInfo.extractLsb' 4 4

/-- Field `ERRINFO.ALIGN` (R32). -/
def State.errAlign (s : State) : Byte := s.errInfo.extractLsb' 8 8

end Sys2Proof.Machine
end

