-- ==== Sys2Proof/Machine/Round.lean ====
section
/-! DEFINITION. Byte and block helpers and the round primitives (40_round_primitives.md R90 to R111): pure functions, none of
which reads or writes state. -/

namespace Sys2Proof

/-- Byte addition on a word, byte by byte (R90). -/
def Col.xor (a b : Col) : Col := ⟨a.b0 ^^^ b.b0, a.b1 ^^^ b.b1, a.b2 ^^^ b.b2, a.b3 ^^^ b.b3⟩

/-- Byte addition on a block, byte by byte (R90). -/
def Block.xor (a b : Block) : Block := ⟨a.c0.xor b.c0, a.c1.xor b.c1, a.c2.xor b.c2, a.c3.xor b.c3⟩

/-- The block whose byte `j` is `f j` (R8). -/
def Block.ofFn (f : Nat → Byte) : Block :=
  ⟨⟨f 0, f 1, f 2, f 3⟩, ⟨f 4, f 5, f 6, f 7⟩, ⟨f 8, f 9, f 10, f 11⟩, ⟨f 12, f 13, f 14, f 15⟩⟩

/-- The bytes of a word, first byte first (R8). -/
def Col.toList (c : Col) : List Byte := [c.b0, c.b1, c.b2, c.b3]

/-- The bytes of a block, lowest address first (R8). -/
def Block.toList (b : Block) : List Byte := b.c0.toList ++ b.c1.toList ++ b.c2.toList ++ b.c3.toList

/-- Byte `B[j]` of a block, `j` < 16 (R8). -/
def Block.byte (b : Block) (j : Nat) : Byte := b.toList.getD j 0

/-- Apply a function to each byte of a word. -/
def Col.map (f : Byte → Byte) (c : Col) : Col := ⟨f c.b0, f c.b1, f c.b2, f c.b3⟩

/-- Apply a function to each byte of a block: sixteen independent lanes (R96). -/
def Block.map (f : Byte → Byte) (b : Block) : Block := ⟨b.c0.map f, b.c1.map f, b.c2.map f, b.c3.map f⟩

namespace Machine

/-- `xtime(b)`, doubling in GF(2^8) (R91). -/
def xtime (b : Byte) : Byte := (b <<< 1) ^^^ (if b.getLsbD 7 then 0x1B else 0x00)

/-- `gmul(a, b)`: for `k` = 0..7, add the running `a` into `p` where `b[k] = 1`, then double it (R92). -/
def gmul (a b : Byte) : Byte :=
  ((List.range 8).foldl (fun (pa : Byte × Byte) k => (if b.getLsbD k then pa.1 ^^^ pa.2 else pa.1, xtime pa.2)) (0x00, a)).1

/-- `ginv(a)`: the byte `x` with `gmul(a, x) = 0x01`, and `ginv(0x00) = 0x00` (R93). -/
def ginv (a : Byte) : Byte :=
  if a = 0 then 0 else (((List.range 256).map (BitVec.ofNat 8)).find? fun x => gmul a x = 0x01).getD 0

/-- R94's definition of the S-box: bit `i` is `y[i] ⊕ y[i+4] ⊕ y[i+5] ⊕ y[i+6] ⊕ y[i+7] ⊕ c[i]`, indices mod 8, `y = ginv(b)`,
`c = 0x63`. The machine uses the table the same rule prints (`sbox`). -/
def sboxAffine (y : Byte) : Byte :=
  let bit := fun i => y.getLsbD (i % 8)
  BitVec.ofBoolListLE ((List.range 8).map fun i =>
    (bit i).xor ((bit (i + 4)).xor ((bit (i + 5)).xor ((bit (i + 6)).xor ((bit (i + 7)).xor ((0x63#8).getLsbD i))))))

/-- The S-box table as R94 prints it: one number a row, its columns from the left. -/
def sboxRows : List Nat :=
  [0x637c777bf26b6fc53001672bfed7ab76, 0xca82c97dfa5947f0add4a2af9ca472c0,
   0xb7fd9326363ff7cc34a5e5f171d83115, 0x04c723c31896059a071280e2eb27b275,
   0x09832c1a1b6e5aa0523bd6b329e32f84, 0x53d100ed20fcb15b6acbbe394a4c58cf,
   0xd0efaafb434d338545f9027f503c9fa8, 0x51a3408f929d38f5bcb6da2110fff3d2,
   0xcd0c13ec5f974417c4a77e3d645d1973, 0x60814fdc222a908846eeb814de5e0bdb,
   0xe0323a0a4906245cc2d3ac629195e479, 0xe7c8376d8dd54ea96c56f4ea657aae08,
   0xba78252e1ca6b4c6e8dd741f4bbd8b8a, 0x703eb5664803f60e613557b986c11d9e,
   0xe1f8981169d98e949b1e87e9ce5528df, 0x8ca1890dbfe6426841992d0fb054bb16]

/-- The inverse S-box table as R95 prints it. -/
def invSboxRows : List Nat :=
  [0x52096ad53036a538bf40a39e81f3d7fb, 0x7ce339829b2fff87348e4344c4dee9cb,
   0x547b9432a6c2233dee4c950b42fac34e, 0x082ea16628d924b2765ba2496d8bd125,
   0x72f8f66486689816d4a45ccc5d65b692, 0x6c704850fdedb9da5e154657a78d9d84,
   0x90d8ab008cbcd30af7e45805b8b34506, 0xd02c1e8fca3f0f02c1afbd0301138a6b,
   0x3a9111414f67dcea97f2cfcef0b4e673, 0x96ac7422e7ad3585e2f937e81c75df6e,
   0x47f11a711d29c5896fb7620eaa18be1b, 0xfc563e4bc6d279209adbc0fe78cd5af4,
   0x1fdda8338807c731b11210592780ec5f, 0x60517fa919b54a0d2de57a9f93c99cef,
   0xa0e03b4dae2af5b0c8ebbb3c83539961, 0x172b047eba77d626e169146355210c7d]

/-- Row = high hex digit of `b`, column = low hex digit (R94). -/
def tableByte (rows : List Nat) (b : Byte) : Byte :=
  BitVec.ofNat 8 (rows.getD (b.toNat / 16) 0 >>> (8 * (15 - b.toNat % 16)))

/-- `SBOX[b]` (R94). -/
def sbox (b : Byte) : Byte := tableByte sboxRows b

/-- `INVSBOX[b]` (R95). -/
def invSbox (b : Byte) : Byte := tableByte invSboxRows b

/-- `SubBytes(B)` (R96). -/
def subBytes (b : Block) : Block := b.map sbox

/-- `InvSubBytes(B)` (R97). -/
def invSubBytes (b : Block) : Block := b.map invSbox

/-- `ShiftRows(B)`: `out[row + 4*col] = B[row + 4*((col + row) mod 4)]` (R98). -/
def shiftRows (b : Block) : Block :=
  ⟨⟨b.c0.b0, b.c1.b1, b.c2.b2, b.c3.b3⟩, ⟨b.c1.b0, b.c2.b1, b.c3.b2, b.c0.b3⟩,
   ⟨b.c2.b0, b.c3.b1, b.c0.b2, b.c1.b3⟩, ⟨b.c3.b0, b.c0.b1, b.c1.b2, b.c2.b3⟩⟩

/-- `InvShiftRows(B)`: `out[row + 4*col] = B[row + 4*((col - row) mod 4)]` (R99). -/
def invShiftRows (b : Block) : Block :=
  ⟨⟨b.c0.b0, b.c3.b1, b.c2.b2, b.c1.b3⟩, ⟨b.c1.b0, b.c0.b1, b.c3.b2, b.c2.b3⟩,
   ⟨b.c2.b0, b.c1.b1, b.c0.b2, b.c3.b3⟩, ⟨b.c3.b0, b.c2.b1, b.c1.b2, b.c0.b3⟩⟩

/-- One column of MixColumns (R100). -/
def mixColumn (a : Col) : Col where
  b0 := gmul a.b0 0x02 ^^^ gmul a.b1 0x03 ^^^ a.b2 ^^^ a.b3
  b1 := a.b0 ^^^ gmul a.b1 0x02 ^^^ gmul a.b2 0x03 ^^^ a.b3
  b2 := a.b0 ^^^ a.b1 ^^^ gmul a.b2 0x02 ^^^ gmul a.b3 0x03
  b3 := gmul a.b0 0x03 ^^^ a.b1 ^^^ a.b2 ^^^ gmul a.b3 0x02

/-- One column of InvMixColumns (R101). -/
def invMixColumn (a : Col) : Col where
  b0 := gmul a.b0 0x0E ^^^ gmul a.b1 0x0B ^^^ gmul a.b2 0x0D ^^^ gmul a.b3 0x09
  b1 := gmul a.b0 0x09 ^^^ gmul a.b1 0x0E ^^^ gmul a.b2 0x0B ^^^ gmul a.b3 0x0D
  b2 := gmul a.b0 0x0D ^^^ gmul a.b1 0x09 ^^^ gmul a.b2 0x0E ^^^ gmul a.b3 0x0B
  b3 := gmul a.b0 0x0B ^^^ gmul a.b1 0x0D ^^^ gmul a.b2 0x09 ^^^ gmul a.b3 0x0E

/-- `MixColumns(B)`: the four columns independently (R100). -/
def mixColumns (b : Block) : Block := ⟨mixColumn b.c0, mixColumn b.c1, mixColumn b.c2, mixColumn b.c3⟩

/-- `InvMixColumns(B)` (R101). -/
def invMixColumns (b : Block) : Block :=
  ⟨invMixColumn b.c0, invMixColumn b.c1, invMixColumn b.c2, invMixColumn b.c3⟩

/-- `AddRoundKey(B, K) = B ⊕ K` (R103). -/
def addRoundKey (b k : Block) : Block := b.xor k

/-- `AESRound(S, K)` (R104). -/
def aesRound (s k : Block) : Block := addRoundKey (mixColumns (shiftRows (subBytes s))) k

/-- `AESFinalRound(S, K)` (R105). -/
def aesFinalRound (s k : Block) : Block := addRoundKey (shiftRows (subBytes s)) k

/-- `AESInvRound(S, K)`: InvMixColumns, then the key (R106; 90_conflicts.md C3). -/
def aesInvRound (s k : Block) : Block := addRoundKey (invMixColumns (invSubBytes (invShiftRows s))) k

/-- `AESInvFinalRound(S, K)` (R107). -/
def aesInvFinalRound (s k : Block) : Block := addRoundKey (invSubBytes (invShiftRows s)) k

/-- `RotWord([a0, a1, a2, a3]) = [a1, a2, a3, a0]` (R109). -/
def rotWord (a : Col) : Col := ⟨a.b1, a.b2, a.b3, a.b0⟩

/-- `SubWord`: the S-box on each byte (R110). -/
def subWord (a : Col) : Col := a.map sbox

/-- `RCON[0..9]` (R111). -/
def rconTable : List Byte := [0x01, 0x02, 0x04, 0x08, 0x10, 0x20, 0x40, 0x80, 0x1B, 0x36]

/-- `RCON[k]`, `k` = 0..9 (R111). -/
def rcon (k : Nat) : Byte := rconTable.getD k 0

end Machine

end Sys2Proof
end

