-- ==== Sys2Proof/Machine/Ops.lean ====
section
/-! DEFINITION. The shared operations over memory, the round-key store and the status registers: byte and block access to
MEM (20_memory.md R50 to R53), the launch precondition on ranges (R51, 93_implementation_defined.md U4, U5), the free values,
the error entry `raise` and the normal end `complete` (60_exceptions.md R166, R167), and the reset event (R190 to R192). -/

namespace Sys2Proof.Machine

/-- What a present address that no cell lists reads as. DESIGN CHOICE: 0 (the spec gives MEM no initial contents), unsafe
(log 5). -/
def Memory.unlisted : Byte := 0

/-- The byte the cells give an address. -/
def readCells (cells : List Host.Cell) (a : Nat) : Byte :=
  match cells with
  | [] => Memory.unlisted
  | (b, v) :: rest => if a = b then v else readCells rest a

/-- The cells with byte `v` at address `a`, in canonical form: in place in the rising order, and no cell where `v` is what an
unlisted address reads as. -/
def writeCells (cells : List Host.Cell) (a : Nat) (v : Byte) : List Host.Cell :=
  match cells with
  | [] => if v = Memory.unlisted then [] else [(a, v)]
  | (b, w) :: rest =>
    if b < a then (b, w) :: writeCells rest a v
    else
      let after := if b = a then rest else (b, w) :: rest
      if v = Memory.unlisted then after else (a, v) :: after

/-- `MEM[a]`: one byte (R50). -/
def Memory.read (m : Memory) (a : Nat) : Byte := readCells m.cells a

/-- `MEM[a] <- v`: one byte (R53); the map is the platform's and does not change. -/
def Memory.write (m : Memory) (a : Nat) (v : Byte) : Memory := { m with cells := writeCells m.cells a v }

/-- The cells are in canonical form: addresses strictly rising, none equal to what an unlisted address reads as. -/
def cellsWf : List Host.Cell → Bool
  | [] => true
  | (a, v) :: rest => decide (v ≠ Memory.unlisted) && rest.all (fun c => decide (a < c.1)) && cellsWf rest

/-- The memory's contents are in canonical form. -/
def Memory.wf (m : Memory) : Bool := cellsWf m.cells

/-- The sixteen bytes from address `a`, byte `j` of the block at `a + j` (R50, R52). -/
def Memory.readBlock (m : Memory) (a : Nat) : Block := Block.ofFn fun j => m.read (a + j)

/-- `MEM[a + j] <- v[j]` for `j` = 0..15 ascending, each byte once (R53). -/
def Memory.writeBlock (m : Memory) (a : Nat) (v : Block) : Memory :=
  (List.range 16).foldl (fun m j => m.write (a + j) (v.byte j)) m

/-- What the memory map has at an address: the first region that holds it, or nothing; nothing where it is no `AW`-bit address
(R51). -/
def Memory.kindAt (m : Memory) (a : Nat) : Option RegionKind :=
  if a < 2 ^ m.aw then (m.map.find? fun r => decide (r.base ≤ a ∧ a < r.base + r.size)).map Region.kind else none

/-- Every byte of `[a, a + n)` is present (R51). -/
def Memory.rangePresent (m : Memory) (a n : Nat) : Bool := (List.range n).all fun j => (m.kindAt (a + j)).isSome

/-- Every byte of `[a, a + n)` is ordinary memory (R57, R58). -/
def Memory.rangeOrdinary (m : Memory) (a n : Nat) : Bool :=
  (List.range n).all fun j => decide (m.kindAt (a + j) = some .ordinary)

/-- The launch precondition on one range: it does not pass 2^AW, and every byte of it is present ordinary memory (R51; U4, U5). -/
def Memory.rangeRefusal (m : Memory) (range : Nat × Nat) : Option Refusal :=
  if range.1 + range.2 > 2 ^ m.aw then some .rangeWraps
  else if !m.rangePresent range.1 range.2 then some .rangeAbsent
  else if !m.rangeOrdinary range.1 range.2 then some .rangeDevice
  else none

/-- The launch precondition on every range of a command, the first that fails reported. -/
def Memory.launchRefusal (m : Memory) (ranges : List (Nat × Nat)) : Option Refusal :=
  ranges.findSome? m.rangeRefusal

/-- `MemRead(addr, 16)`: the block, and the access recorded (R52, R56). -/
def State.memRead (s : State) (addr : Nat) : Block × State :=
  (s.mem.readBlock addr, { s with accesses := s.accesses ++ [.read addr] })

/-- `MemWrite(addr, 16, v)`, and the access recorded (R53, R56). -/
def State.memWrite (s : State) (addr : Nat) (v : Block) : State :=
  { s with mem := s.mem.writeBlock addr v, accesses := s.accesses ++ [.write addr] }

/-- `RK[i]` (R11, R20). -/
def State.slot (s : State) (i : Fin 22) : Block := s.rk[i]

/-- `KS[n] = RK[n div 16][n mod 16]`, `n` < 352 (R22). -/
def State.scheduleByte (s : State) (n : Nat) : Byte := (s.slot (Fin.ofNat 22 (n / 16))).byte (n % 16)

/-- A block of free values drawn from position `n` (log 9). -/
def freeBlock (n : Nat) : Block := Block.ofFn fun j => Config.freeByte (n + j)

/-- A store of free values drawn from position `n` (log 9). -/
def freeStore (n : Nat) : Vector Block 22 := Vector.ofFn fun (i : Fin 22) => freeBlock (n + 16 * i.val)

/-- A free block index of `AW - 4` bits drawn at position `n` (R26; log 9). -/
def freeIndex (aw n : Nat) : Nat := Config.freeNat n % 2 ^ (aw - 4)

/-- A free round index drawn from position `n` (log 9). -/
def freeRound (n : Nat) : BitVec 4 := (Config.freeByte n).setWidth 4

/-- `RK[0..21] <- unspecified` (41_key_schedule.md R129; U2). -/
def State.forgetStore (s : State) : State :=
  { s with rk := freeStore s.freeCount, freeCount := s.freeCount + Config.scheduleBytes }

/-- `r` after a command that used it is unspecified (10_state.md R26; log 10). -/
def State.forgetRound (s : State) : State :=
  { s with seqR := freeRound s.freeCount, freeCount := s.freeCount + 1 }

/-- `ST`, `FB` and the sequencer after a command that used them are unspecified (R25, R26, R40; log 10). -/
def State.forgetWork (s : State) : State :=
  { s with st := freeBlock s.freeCount, fb := freeBlock (s.freeCount + 16), seqI := freeIndex s.mem.aw (s.freeCount + 32),
           seqR := freeRound (s.freeCount + 33), freeCount := s.freeCount + 34 }

/-- `LCB` after a command that used it is unspecified (R25, R40; log 10). -/
def State.forgetLcb (s : State) : State :=
  { s with lcb := freeBlock s.freeCount, freeCount := s.freeCount + 16 }

/-- `raise <Kind>(buf, align)`: DONE and ERR set, ERRINFO records the failure, nothing else changes (R166). The engine's
exception entry: "There is no saved program counter, no mode change, no stack, no vector and no handler". There is no return
either: STATUS and ERRINFO are overwritten by the next command's end (R168). -/
def State.raise (s : State) (e : CommandError) : State :=
  { s with status := statusWord true true, errInfo := e.errInfo }

/-- `complete`: DONE set, ERR cleared, ERRINFO zero (R167). -/
def State.complete (s : State) : State :=
  { s with status := statusWord true false, errInfo := 0 }

/-- The reset event (R190, R191): the engine's registers take their reset values, the store and the working registers become
unspecified (U7, free values), MEM is not touched; the host's side of the model (queue, last read, access record) stays. -/
def State.resetEvent (s : State) : State :=
  { State.reset with
    mem := s.mem, pending := s.pending, readData := s.readData, accesses := s.accesses
    rk := freeStore s.freeCount
    st := freeBlock (s.freeCount + 352), fb := freeBlock (s.freeCount + 368), lcb := freeBlock (s.freeCount + 384)
    seqI := freeIndex s.mem.aw (s.freeCount + 400), seqR := freeRound (s.freeCount + 401)
    freeCount := s.freeCount + 402 }

/-- The bytes `[a, a + n)` after a reset cut the command that was writing them: each its old or its new value, chosen by a free
bit (R192; U10; log 14). -/
def Memory.cut (old new : Memory) (a n free : Nat) : Memory :=
  (List.range n).foldl
    (fun m j => m.write (a + j) (if (Config.freeByte (free + j)).getLsbD 0 then new.read (a + j) else old.read (a + j))) old

end Sys2Proof.Machine
end

