-- ==== Sys2Proof/Machine/Operands.lean ====
section
/-! DEFINITION. Operands: the register map (10_state.md R27), reading and writing the registers (R28 to R32, R38), the
operand registers a command samples (30_encoding.md R73), the ranges it touches (20_memory.md R59), and the precondition
checks on them (60_exceptions.md R164). -/

namespace Sys2Proof.Machine

/-- The host registers by name (R27). -/
inductive Reg where
  | cmd
  | status
  | errInfo
  | keyVar
  | keyAddr
  | keyLen
  | ivAddr
  | ivLen
  | srcAddr
  | srcLen
  | dstAddr
  | dstLen
  deriving DecidableEq, Repr

/-- What stands at an offset of the register space (R27, R35). -/
inductive Target where
  /-- A register. -/
  | reg (r : Reg)
  /-- Byte `n` of the schedule window. -/
  | kswin (n : Nat)
  /-- A reserved offset. -/
  | reserved
  /-- Beyond the 0x400 bytes of the register space. -/
  | outside
  deriving DecidableEq, Repr

/-- A register's byte offset (R27). -/
def Reg.offset : Reg → Nat
  | .cmd => 0x000
  | .status => 0x004
  | .errInfo => 0x008
  | .keyVar => 0x00C
  | .keyAddr => 0x010
  | .keyLen => 0x014
  | .ivAddr => 0x018
  | .ivLen => 0x01C
  | .srcAddr => 0x020
  | .srcLen => 0x024
  | .dstAddr => 0x028
  | .dstLen => 0x02C

/-- The registers in the order of their offsets (R27). -/
def Reg.all : List Reg :=
  [.cmd, .status, .errInfo, .keyVar, .keyAddr, .keyLen, .ivAddr, .ivLen, .srcAddr, .srcLen, .dstAddr, .dstLen]

/-- The operand registers (R29). -/
def Reg.operands : List Reg := [.keyAddr, .keyLen, .ivAddr, .ivLen, .srcAddr, .srcLen, .dstAddr, .dstLen]

/-- The offset of `KSWIN[0]` (R27). -/
def kswinBase : Nat := 0x200

/-- What stands at an offset (R27): a register for any of its four bytes, the window, or a reserved offset. -/
def target (offset : Nat) : Target :=
  if Config.registerSpace ≤ offset then .outside
  else if kswinBase ≤ offset ∧ offset < kswinBase + Config.scheduleBytes then .kswin (offset - kswinBase)
  else match Reg.all.find? fun r => decide (r.offset ≤ offset ∧ offset < r.offset + 4) with
    | some r => .reg r
    | none => .reserved

/-- The bytes of an access. -/
def Width.bytes : Width → Nat
  | .byte => 1
  | .half => 2
  | .word => 4

/-- The value a register holds, as an unsigned number (R8, R28 to R32). -/
def State.regValue (s : State) : Reg → Nat
  | .cmd => s.cmd.toNat
  | .status => s.status.toNat
  | .errInfo => s.errInfo.toNat
  | .keyVar => s.kvar.code.toNat
  | .keyAddr => s.keyAddr
  | .keyLen => s.keyLen
  | .ivAddr => s.ivAddr
  | .ivLen => s.ivLen
  | .srcAddr => s.srcAddr
  | .srcLen => s.srcLen
  | .dstAddr => s.dstAddr
  | .dstLen => s.dstLen

/-- The 32 bits a read of a register returns (R27); no side effect. Of an operand register wider than that they are the low ones
(log 1). -/
def State.readReg (s : State) (r : Reg) : Word := BitVec.ofNat 32 (s.regValue r)

/-- What an operand register holds after a 32-bit write of `v`: its value as an unsigned `AW`-bit number (R29), so all of it where
`AW` is 32 or more (log 1). -/
def State.operandValue (s : State) (v : Word) : Nat := v.toNat % 2 ^ s.mem.aw

/-- Store a value in a register: CMD and the operand registers hold it (R28, R29), a read-only register ignores it (R38). What a
write of CMD starts is the step's. -/
def State.writeReg (s : State) (r : Reg) (v : Word) : State :=
  match r with
  | .cmd => { s with cmd := v }
  | .status => s
  | .errInfo => s
  | .keyVar => s
  | .keyAddr => { s with keyAddr := s.operandValue v }
  | .keyLen => { s with keyLen := s.operandValue v }
  | .ivAddr => { s with ivAddr := s.operandValue v }
  | .ivLen => { s with ivLen := s.operandValue v }
  | .srcAddr => { s with srcAddr := s.operandValue v }
  | .srcLen => { s with srcLen := s.operandValue v }
  | .dstAddr => { s with dstAddr := s.operandValue v }
  | .dstLen => { s with dstLen := s.operandValue v }

/-- What KEYLOAD samples, as unsigned `AW`-bit values (R73). -/
structure KeyOperands where
  addr : Nat
  len  : Nat
  deriving DecidableEq, Repr

/-- What ENCRYPT and DECRYPT sample, as unsigned `AW`-bit values (R73). -/
structure CipherOperands where
  ivAddr  : Nat
  ivLen   : Nat
  srcAddr : Nat
  srcLen  : Nat
  dstAddr : Nat
  dstLen  : Nat
  deriving DecidableEq, Repr

/-- KEYLOAD's sample (R73). -/
def State.keyOperands (s : State) : KeyOperands where
  addr := s.keyAddr
  len := s.keyLen

/-- ENCRYPT's and DECRYPT's sample (R73). -/
def State.cipherOperands (s : State) : CipherOperands where
  ivAddr := s.ivAddr
  ivLen := s.ivLen
  srcAddr := s.srcAddr
  srcLen := s.srcLen
  dstAddr := s.dstAddr
  dstLen := s.dstLen

/-- KEYLOAD's one check (41_key_schedule.md R121). -/
def KeyOperands.check (o : KeyOperands) : Option CommandError :=
  if o.len ≠ 16 then some ⟨.unsupportedKeySize, .key, 0⟩ else none

/-- The range KEY (20_memory.md R59). -/
def KeyOperands.ranges (o : KeyOperands) : List (Nat × Nat) := [(o.addr, 16)]

/-- The six checks in order, the first that fails reported (60_exceptions.md R164; R141, R151). -/
def CipherOperands.check (o : CipherOperands) (kvar : KVar) : Option CommandError :=
  if o.srcLen = 0 then some ⟨.emptyInput, .src, 0⟩
  else if o.srcLen % 16 ≠ 0 then some ⟨.blockAlignment, .src, 16⟩
  else if o.dstLen % 16 ≠ 0 then some ⟨.blockAlignment, .dst, 16⟩
  else if o.ivLen ≠ 16 then some ⟨.emptyInput, .iv, 0⟩
  else if o.dstLen < o.srcLen then some ⟨.bufferTooSmall, .dst, 0⟩
  else if kvar ≠ .aes128 then some ⟨.unsupportedOperation, .none, 0⟩
  else none

/-- The ranges IV, SRC and DSTW, the part of DST that is written (20_memory.md R59). -/
def CipherOperands.ranges (o : CipherOperands) : List (Nat × Nat) :=
  [(o.ivAddr, 16), (o.srcAddr, o.srcLen), (o.dstAddr, o.srcLen)]

/-- `n = SRC_LEN div 16` (R112). -/
def CipherOperands.blocks (o : CipherOperands) : Nat := o.srcLen / 16

/-- The address of input block `i` (R50, R56). -/
def CipherOperands.srcBlock (o : CipherOperands) (i : Nat) : Nat := o.srcAddr + 16 * i

/-- The address of output block `i` (R50, R56). -/
def CipherOperands.dstBlock (o : CipherOperands) (i : Nat) : Nat := o.dstAddr + 16 * i

end Sys2Proof.Machine
end

