-- ==== Sys2Proof/Machine/Cbc.lean ====
section
/-! DEFINITION. The block-cipher engine: ENCRYPT and DECRYPT (42_cbc_encrypt.md, 43_cbc_decrypt.md), written over the working
registers ST, FB, LCB and the sequencer (10_state.md R25, R26), and the two block transforms as functions. -/

namespace Sys2Proof.Machine

/-- `ST <- AESRound(ST, RK[r])` with the round index at `r` (R143). -/
def State.encryptRound (s : State) (r : Fin 22) : State :=
  { s with st := aesRound s.st (s.slot r), seqR := BitVec.ofNat 4 r.val }

/-- `ST <- AESInvRound(ST, RK[11 + r])` with the round index at `r` (R153). -/
def State.decryptRound (s : State) (r : Fin 22) : State :=
  { s with st := aesInvRound s.st (s.slot (11 + r)), seqR := BitVec.ofNat 4 r.val }

/-- `FB <- MemRead(va, 16)`, and the sequencer at block 0 (R143, R153; R26). -/
def State.loadIv (s : State) (o : CipherOperands) : State :=
  let (iv, s) := s.memRead o.ivAddr
  { s with fb := iv, seqI := 0 }

/-- The body of ENCRYPT's loop for block `i` (R143). -/
def State.encryptStep (o : CipherOperands) (s : State) : State :=
  let i := s.seqI
  let (p, s) := s.memRead (o.srcBlock i)
  let s := { s with st := (p.xor s.fb).xor (s.slot 0) }
  let s := [1, 2, 3, 4, 5, 6, 7, 8, 9].foldl State.encryptRound s
  let s := { s with st := aesFinalRound s.st (s.slot 10), seqR := 10 }
  let s := s.memWrite (o.dstBlock i) s.st
  { s with fb := s.st, seqI := s.seqI + 1 }

/-- The body of DECRYPT's loop for block `i` (R153). -/
def State.decryptStep (o : CipherOperands) (s : State) : State :=
  let i := s.seqI
  let (c, s) := s.memRead (o.srcBlock i)
  let s := { s with lcb := c }
  let s := { s with st := s.lcb.xor (s.slot 11) }
  let s := [1, 2, 3, 4, 5, 6, 7, 8, 9].foldl State.decryptRound s
  let s := { s with st := aesInvFinalRound s.st (s.slot 21), seqR := 10 }
  let s := { s with st := s.st.xor s.fb }
  let s := s.memWrite (o.dstBlock i) s.st
  { s with fb := s.lcb, seqI := s.seqI + 1 }

/-- The frame both ciphers share (R143, R153): sample, the six checks, the launch precondition (R51), the IV, the loop over the
blocks in order, `complete`. What a command leaves in the working registers it used is unspecified (log 10). -/
def runCipher (body : CipherOperands → State → State) (forget : State → State) (s : State) :
    Host.Outcome State Fault Refusal :=
  let o := s.cipherOperands
  match o.check s.kvar with
  | some e => .next (s.raise e)
  | none =>
    match s.mem.launchRefusal o.ranges with
    | some r => .refused r
    | none => .next (forget ((body o)^[o.blocks] (s.loadIv o))).complete

/-- ENCRYPT (R143). -/
def execEncrypt (s : State) : Host.Outcome State Fault Refusal :=
  runCipher State.encryptStep State.forgetWork s

/-- DECRYPT (R153). -/
def execDecrypt (s : State) : Host.Outcome State Fault Refusal :=
  runCipher State.decryptStep (fun s => s.forgetWork.forgetLcb) s

/-- `E_K`: initial ⊕ `RK[0]`, nine AESRound, one AESFinalRound (R143). -/
def encryptBlock (rk : Vector Block 22) (x : Block) : Block :=
  aesFinalRound (([1, 2, 3, 4, 5, 6, 7, 8, 9] : List (Fin 22)).foldl (fun t (r : Fin 22) => aesRound t rk[r]) (x.xor rk[(0 : Fin 22)]))
    rk[(10 : Fin 22)]

/-- `D_K`: ⊕ `RK[11]`, nine AESInvRound with `RK[12..20]`, AESInvFinalRound with `RK[21]` (R153). -/
def decryptBlock (rk : Vector Block 22) (x : Block) : Block :=
  aesInvFinalRound
    (([1, 2, 3, 4, 5, 6, 7, 8, 9] : List (Fin 22)).foldl (fun t (r : Fin 22) => aesInvRound t rk[11 + r]) (x.xor rk[(11 : Fin 22)]))
    rk[(21 : Fin 22)]

end Sys2Proof.Machine
end

