-- ==== Sys2Proof/Machine/KeySchedule.lean ====
section
/-! DEFINITION. The key-schedule engine: KEYLOAD and KEYDISCARD (41_key_schedule.md). -/

namespace Sys2Proof.Machine

/-- One forward round: `N[r]` from `P = N[r-1]` with `RCON[r-1]` (R123). -/
def expandRound (p : Block) (rc : Byte) : Block :=
  let sw := subWord (rotWord p.c3)
  let t := { sw with b0 := sw.b0 ^^^ rc }
  let n0 := p.c0.xor t
  let n1 := p.c1.xor n0
  let n2 := p.c2.xor n1
  let n3 := p.c3.xor n2
  ⟨n0, n1, n2, n3⟩

/-- `N[r]`, the r-th forward round key of a raw key, by the recurrence itself (R122, R123). KEYLOAD computes the same keys one
after another (`State.keyRound`). -/
def forwardKey (k : Block) : Nat → Block
  | 0 => k
  | r + 1 => expandRound (forwardKey k r) (rcon r)

/-- What KEYLOAD puts in slot `i`, given the forward keys `N` (R124, R125): `N[i]` in the encryption region; `N[10]`, the
InvMixColumns of `N[21 - i]`, and `N[0]` in the decryption region. -/
def scheduleSlot (n : Nat → Block) (i : Nat) : Block :=
  if i ≤ 10 then n i
  else if i = 11 then n 10
  else if i = 21 then n 0
  else invMixColumns (n (21 - i))

/-- All 22 slots, given the forward keys (R125). -/
def scheduleOf (n : Nat → Block) : Vector Block 22 := Vector.ofFn fun (i : Fin 22) => scheduleSlot n i.val

/-- All 22 slots for a raw key (R125). -/
def keySchedule (k : Block) : Vector Block 22 := scheduleOf (forwardKey k)

/-- The store and the tag take a whole schedule together (R126). -/
def State.storeSchedule (s : State) (rk : Vector Block 22) : State := { s with rk := rk, kvar := .aes128 }

/-- `N[j]` of the local values computed so far, `N[0]` first (R125). -/
def localKey (n : List Block) (j : Nat) : Block := n.getD j Block.zero

/-- `N[r] <- as R123 from N[r-1]` with the round index at `r` (R125; 10_state.md R26: `r` counts "1..10 inside KEYLOAD"), on the local
values so far and the state. -/
def State.keyRound (x : List Block × State) (r : Nat) : List Block × State :=
  (x.1 ++ [expandRound (localKey x.1 (r - 1)) (rcon (r - 1))], { x.2 with seqR := BitVec.ofNat 4 r })

/-- `for r = 1..10` of KEYLOAD, from `N[0]` (R125). -/
def State.keyRounds (s : State) (n0 : Block) : List Block × State :=
  [1, 2, 3, 4, 5, 6, 7, 8, 9, 10].foldl State.keyRound ([n0], s)

/-- `KVAR <- NONE` (R129). -/
def State.dropKey (s : State) : State := { s with kvar := .none }

/-- KEYLOAD (R125). A bad `KEY_LEN` is raised before anything else; then the launch precondition on the key's range (R51), the ten
rounds, and the placement. What the rounds leave in the round index is unspecified (log 10). -/
def execKeyload (s : State) : Host.Outcome State Fault Refusal :=
  let o := s.keyOperands
  match o.check with
  | some e => .next (s.raise e)
  | none =>
    match s.mem.launchRefusal o.ranges with
    | some r => .refused r
    | none =>
      let (n0, s) := s.memRead o.addr
      let (n, s) := s.keyRounds n0
      .next ((s.storeSchedule (scheduleOf (localKey n))).forgetRound.complete)

/-- KEYDISCARD (R129): the tag goes to NONE and the store's bytes become unspecified. It never fails and touches no memory. -/
def execKeydiscard (s : State) : Host.Outcome State Fault Refusal :=
  .next (s.dropKey.forgetStore.complete)

end Sys2Proof.Machine
end

