-- ==== Sys2Proof/Machine/Host.lean ====
section
/-! DEFINITION. The host's operations (10_state.md R39): a register write, which for CMD runs the command (30_encoding.md R77),
a register read (R38), byte loads and stores of MEM, and the platform's reset (70_reset_and_hazards.md R190, R192). -/

namespace Sys2Proof.Machine

/-- A write of `w` to CMD: the word is stored, decoded, and run; an illegal word raises IllegalCommand (R28, R74, R77, R176). -/
def runCommand (w : Word) (s : State) : Host.Outcome State Fault Refusal :=
  let s := s.writeReg .cmd w
  match decode w with
  | .ok i => exec i s
  | .error _ => .next (s.raise ⟨.illegalCommand, .none, 0⟩)

/-- A host write to the register space (R38, R39). An access not aligned to its width, or not a whole 32-bit register, is refused
(U6); the window and reserved offsets ignore writes of any width (log 12). -/
def hostRegWrite (width : Width) (offset : Nat) (v : Word) (s : State) : Host.Outcome State Fault Refusal :=
  match target offset with
  | .outside => .refused .outsideRegisterSpace
  | .reg r =>
    if width = .word ∧ offset % 4 = 0 then
      if r = .cmd then runCommand v s else .next (s.writeReg r v)
    else .refused .accessShape
  | .kswin _ => if offset % width.bytes = 0 then .next s else .refused .accessShape
  | .reserved => if offset % width.bytes = 0 then .next s else .refused .accessShape

/-- The byte a read of `KSWIN[n]` returns, and the state after it: `KS[n]` while `KVAR = AES128`, else a fresh free value
(R33; U3). -/
def State.readWindow (s : State) (n : Nat) : State :=
  match s.kvar with
  | .aes128 => { s with readData := (s.scheduleByte n).setWidth 32 }
  | .none => { s with readData := (Config.freeByte s.freeCount).setWidth 32, freeCount := s.freeCount + 1 }

/-- A host read of the register space (R38, R39): a whole register by a word, the window by a byte, a reserved offset reads 0. -/
def hostRegRead (width : Width) (offset : Nat) (s : State) : Host.Outcome State Fault Refusal :=
  match target offset with
  | .outside => .refused .outsideRegisterSpace
  | .reg r =>
    if width = .word ∧ offset % 4 = 0 then .next { s with readData := s.readReg r } else .refused .accessShape
  | .kswin n => if width = .byte then .next (s.readWindow n) else .refused .accessShape
  | .reserved => if offset % width.bytes = 0 then .next { s with readData := 0 } else .refused .accessShape

/-- A host store of one byte of MEM (R39; log 13). -/
def hostMemWrite (addr : Nat) (v : Byte) (s : State) : Host.Outcome State Fault Refusal :=
  match s.mem.kindAt addr with
  | none => .fault .hostAddressAbsent
  | some .device => .refused .hostDeviceAccess
  | some .ordinary => .next { s with mem := s.mem.write addr v }

/-- A host load of one byte of MEM (R39; log 13). -/
def hostMemRead (addr : Nat) (s : State) : Host.Outcome State Fault Refusal :=
  match s.mem.kindAt addr with
  | none => .fault .hostAddressAbsent
  | some .device => .refused .hostDeviceAccess
  | some .ordinary => .next { s with readData := (s.mem.read addr).setWidth 32 }

/-- The bytes of DSTW that a command had been writing: `SRC_LEN` for an ENCRYPT or DECRYPT that passed its checks, else none
(R59, R171). -/
def cutSpan (w : Word) (s : State) : Nat :=
  match decode w with
  | .ok .encrypt => if (s.cipherOperands.check s.kvar).isNone then s.srcLen else 0
  | .ok .decrypt => if (s.cipherOperands.check s.kvar).isNone then s.srcLen else 0
  | .ok .keyload => 0
  | .ok .keydiscard => 0
  | .error _ => 0

/-- A CMD write whose command a reset cuts (R192): the engine is in the reset state, each byte of DSTW is its old or its new
value, every other byte of MEM is untouched, and the accesses made are a free number of the command's first ones ("at an
unspecified point"). Where the command itself would be refused, so is this (log 14). -/
def runCutByReset (w : Word) (s : State) : Host.Outcome State Fault Refusal :=
  match runCommand w s with
  | .next t =>
    let n := cutSpan w s
    let made := t.accesses.take (s.accesses.length + Config.freeNat s.freeCount)
    .next { s with mem := Memory.cut s.mem t.mem s.dstAddr n (s.freeCount + 1), accesses := made,
                   freeCount := s.freeCount + 1 + n }.resetEvent
  | .fault f => .fault f
  | .refused r => .refused r

/-- One operation of the host or the platform. -/
def hostStep (op : HostOp) (s : State) : Host.Outcome State Fault Refusal :=
  match op with
  | .regWrite width offset v => hostRegWrite width offset v s
  | .regRead width offset => hostRegRead width offset s
  | .memWrite addr v => hostMemWrite addr v s
  | .memRead addr => hostMemRead addr s
  | .reset => .next s.resetEvent
  | .commandCutByReset w => runCutByReset w s

/-- Host script line `WR NAME, value` (30_encoding.md R78). -/
def HostOp.wr (r : Reg) (v : Word) : HostOp := .regWrite .word r.offset v

/-- Host script line `RD NAME` (R78). -/
def HostOp.rd (r : Reg) : HostOp := .regRead .word r.offset

/-- Host script line `RDKS n..n` (R78). -/
def HostOp.rdks (n : Nat) : HostOp := .regRead .byte (kswinBase + n)

/-- A command line of the host script: the write of its word to CMD (R78). -/
def HostOp.command (i : Instr) : HostOp := .wr .cmd (encode i)

/-- Host script line `MEM[a..] = hex`: the host stores the bytes from `a` up (R78). -/
def HostOp.store (a : Nat) (bytes : List Byte) : List HostOp :=
  (List.range bytes.length).map fun j => .memWrite (a + j) (bytes.getD j 0)

end Sys2Proof.Machine
end

