-- ==== Sys2Proof/Machine/Step.lean ====
section
/-! DEFINITION. One step of the machine: the oldest pending host operation, or idling when there is none (10_state.md R37: "the
engine after reset is idle and waits for a CMD write"). -/

namespace Sys2Proof.Machine

/-- The oldest pending operation is taken off the queue and performed; with none pending the engine is idle (log 15). -/
def step (s : State) : Host.Outcome State Fault Refusal :=
  match s.pending with
  | [] => .next s
  | op :: rest => hostStep op { s with pending := rest }

/-- The instruction word `w` placed where the next step takes it from: a word write of it to CMD at the head of the queue
(log 2). -/
def State.withFetchWord (s : State) (nbits w : Nat) : State :=
  { s with pending := HostOp.wr .cmd (BitVec.ofNat 32 (w % 2 ^ nbits)) :: s.pending }

end Sys2Proof.Machine
end

