-- ==== Sys2Proof/Safety.lean ====
section
/-! DEFINITION. The terms claims are made in: when a range can be launched (20_memory.md R51), when a command executes normally,
the invariant of the loaded key (41_key_schedule.md R127), and the invariant of the whole machine. -/

namespace Sys2Proof.Machine

/-- A buffer range the launch precondition accepts: it does not pass 2^AW and every byte is present ordinary memory (R51; U4, U5). -/
def Memory.RangeOk (m : Memory) (a n : Nat) : Prop :=
  a + n ≤ 2 ^ m.aw ∧ ∀ j < n, m.kindAt (a + j) = some .ordinary

/-- KEYLOAD executes normally: `KEY_LEN` is 16 (R121) and the key's range can be launched. -/
def State.KeyLaunch (s : State) : Prop :=
  s.keyLen = 16 ∧ s.mem.RangeOk s.keyAddr 16

/-- The buffer checks 1 to 5 of ENCRYPT and DECRYPT pass (R164). -/
def State.BuffersOk (s : State) : Prop :=
  s.srcLen ≠ 0 ∧ s.srcLen % 16 = 0 ∧ s.dstLen % 16 = 0 ∧ s.ivLen = 16 ∧ s.srcLen ≤ s.dstLen

/-- The ranges IV, SRC and DSTW can be launched (R51, R59). -/
def State.RangesOk (s : State) : Prop :=
  s.mem.RangeOk s.ivAddr 16 ∧ s.mem.RangeOk s.srcAddr s.srcLen ∧
    s.mem.RangeOk s.dstAddr s.srcLen

/-- ENCRYPT and DECRYPT execute normally: the six checks pass (R164) and the ranges can be launched. -/
def State.CipherLaunch (s : State) : Prop :=
  s.BuffersOk ∧ s.kvar = .aes128 ∧ s.RangesOk

/-- No block of DST is written over a byte of SRC that is still to be read: DST at or below SRC, or at or beyond its end
(R60; the partial forward overlap of U12 excluded). -/
def State.NoForwardOverlap (s : State) : Prop :=
  s.dstAddr ≤ s.srcAddr ∨ s.srcAddr + s.srcLen ≤ s.dstAddr

/-- The block count `n` of the command's operands (R112). -/
def State.blockCount (s : State) : Nat := s.srcLen / 16

/-- `KeyOK(k)`: the store is the schedule of the 16 key bytes `k` (R127). -/
def State.KeyOK (k : Block) (s : State) : Prop :=
  s.kvar = .aes128 ∧
  (∀ r : Fin 22, r.val ≤ 10 → s.slot r = forwardKey k r.val) ∧
  s.slot 11 = s.slot 10 ∧ s.slot 21 = s.slot 0 ∧
  (∀ r : Fin 22, 1 ≤ r.val → r.val ≤ 9 → s.slot (21 - r) = invMixColumns (s.slot r))

/-- While a key is loaded the store is the schedule of slot 0 (R21, R127). -/
def State.KeyInv (s : State) : Prop := s.kvar = .aes128 → s.KeyOK (s.slot 0)

/-- The values ERRINFO can take (60_exceptions.md R163). -/
def errInfoValues : List Word :=
  [0x00000011, 0x00000032, 0x00000022, 0x00001033, 0x00001043, 0x00000044, 0x00000005, 0x00000007]

/-- STATUS and ERRINFO agree: no command has ended, or the last one completed, or it failed with one of the eight values
(R31, R32, R163). -/
def State.StatusInv (s : State) : Prop :=
  (s.status = 0 ∧ s.errInfo = 0) ∨ (s.status = 1 ∧ s.errInfo = 0) ∨ (s.status = 3 ∧ s.errInfo ∈ errInfoValues)

/-- Every operand register holds an `AW`-bit value (R29) and the block index an (`AW` - 4)-bit one (R26). -/
def State.FitsAw (s : State) : Prop :=
  (∀ r ∈ Reg.operands, s.regValue r < 2 ^ s.mem.aw) ∧ s.seqI < 2 ^ (s.mem.aw - 4)

/-- The invariant of the machine: memory is in canonical form, a loaded key is a whole schedule, the status words are legal, and
what is `AW` bits wide stays so. -/
def State.Inv (s : State) : Prop := s.mem.wf = true ∧ s.KeyInv ∧ s.StatusInv ∧ s.FitsAw

/-- The registers no command writes (R29, R34) and the host's side are as before: CMD, the operand registers, the queue, and the
last read. -/
def State.SameInterface (s t : State) : Prop :=
  t.cmd = s.cmd ∧ t.keyAddr = s.keyAddr ∧ t.keyLen = s.keyLen ∧ t.ivAddr = s.ivAddr ∧ t.ivLen = s.ivLen ∧
  t.srcAddr = s.srcAddr ∧ t.srcLen = s.srcLen ∧ t.dstAddr = s.dstAddr ∧ t.dstLen = s.dstLen ∧
  t.pending = s.pending ∧ t.readData = s.readData

/-- Input block `i` of the command's operands: the block at `SRC_ADDR + 16i` (R50). -/
def State.srcBlock (s : State) (i : Nat) : Block := s.mem.readBlock (s.srcAddr + 16 * i)

/-- The IV of the command's operands (R50). -/
def State.ivBlock (s : State) : Block := s.mem.readBlock s.ivAddr

/-- Output block `i` of the command's operands: the block at `DST_ADDR + 16i` (R50). -/
def State.dstBlock (s : State) (i : Nat) : Block := s.mem.readBlock (s.dstAddr + 16 * i)

/-- What a failing command leaves: STATUS 3 and ERRINFO as given, everything else as before (R166). -/
def State.failed (s : State) (errInfo : Word) : State := { s with status := 3, errInfo := errInfo }

end Sys2Proof.Machine
end

