-- ==== Sys2Proof/Certificates/Slice0/Obligations.lean ====
section
/-! DEFINITION. The statements about the engine, for the provers. Each docstring names the rules of spec/ it is about. -/

open Sys2Proof Sys2Proof.Machine

/-! ### Encoding and dispatch -/

/-- R72: a word encodes a command exactly where the opcode map lists it; every other word encodes none. -/
def Obligations.DecodeIsTheOpcodeMap : Prop :=
  ∀ (w : Word) (i : Instr), decode w = .ok i ↔
    (w = 0x00000001 ∧ i = .keyload) ∨ (w = 0x00000002 ∧ i = .encrypt) ∨
    (w = 0x00000003 ∧ i = .decrypt) ∨ (w = 0x00000004 ∧ i = .keydiscard)

/-- R71, R72: decoding the word of a well-formed command gives the command back, in the table's numbering as well. -/
def Obligations.DecodeOfEncode : Prop :=
  ∀ i : Instr, i.wellFormed = true →
    decode (encode i) = .ok i ∧ decodeTableWord 32 (encode i).toNat = some i ∧ wellFormedWord (encode i) = true

/-- R72, R74: the four words of the opcode map decode to their commands, and the illegal words of 95_test_vectors.md section 5 to
none. -/
def Obligations.WordsOfTheSpecDecode : Prop :=
  decode 0x00000001 = .ok .keyload ∧ decode 0x00000002 = .ok .encrypt ∧ decode 0x00000003 = .ok .decrypt ∧
  decode 0x00000004 = .ok .keydiscard ∧ decode 0x00000000 = .error .unknownOpcode ∧
  decode 0x00000005 = .error .unknownOpcode ∧ decode 0x000000FF = .error .unknownOpcode ∧
  decode 0x00000101 = .error .reservedBits ∧ decode 0x00010002 = .error .reservedBits ∧
  decode 0x80000003 = .error .reservedBits ∧ decode 0xFFFFFFFF = .error .reservedBits

/-- R74, R176: a word that is no command is stored in CMD and raises IllegalCommand; nothing else changes. (That the model raises
it and does not refuse it is one of the two choices R176 offers, log 11.) -/
def Obligations.IllegalWordRaisesIllegalCommand : Prop :=
  ∀ (s : State) (w : Word) (rest : List HostOp), s.pending = .wr .cmd w :: rest →
    (w.extractLsb' 8 24 ≠ 0 ∨ w.extractLsb' 0 8 ∉ [0x01#8, 0x02#8, 0x03#8, 0x04#8]) →
    step s = .next { s with pending := rest, cmd := w, status := 0x3, errInfo := 0x7 }

/-- R28, R77: a step over a CMD write of a word that decodes to `i` is `exec i` at the state with the queue moved on and the word
in CMD; and `withFetchWord` places such a write. -/
def Obligations.StepRunsTheDecodedCommand : Prop :=
  (∀ (s : State) (w : Word) (rest : List HostOp) (i : Instr), s.pending = .wr .cmd w :: rest → decode w = .ok i →
    step s = exec i { s with pending := rest, cmd := w }) ∧
  (∀ (s : State) (i : Instr), step (s.withFetchWord 32 (encode i).toNat) = exec i { s with cmd := encode i })

/-- R37, R174: with no host operation pending the engine is idle and keeps all its state. (That a step with an empty queue
idles is the model's choice, log 15.) -/
def Obligations.IdleEngineKeepsItsState : Prop :=
  ∀ s : State, s.pending = [] → step s = .next s

/-! ### Host registers -/

/-- R29, R39, R7: whatever the parameter AW is, a write to an operand register sets that register to the value as an AW-bit number,
so to the value itself where AW is 32 or more, and does nothing else. (That a register of more than 32 bits takes the 32 bits
written is the model's choice, log 1.) -/
def Obligations.OperandRegisterWrite : Prop :=
  ∀ (s : State) (r : Reg) (v : Word) (rest : List HostOp),
    r ∉ [Reg.cmd, Reg.status, Reg.errInfo, Reg.keyVar] → s.pending = .wr r v :: rest →
    ∃ t, step s = .next t ∧ t.regValue r = v.toNat % 2 ^ s.mem.aw ∧ (32 ≤ s.mem.aw → t.readReg r = v) ∧
      (∀ r', r' ≠ r → t.regValue r' = s.regValue r') ∧
      t.rk = s.rk ∧ t.kvar = s.kvar ∧ t.st = s.st ∧ t.fb = s.fb ∧ t.lcb = s.lcb ∧ t.seqI = s.seqI ∧ t.seqR = s.seqR ∧
      t.mem = s.mem ∧ t.pending = rest ∧ t.readData = s.readData ∧ t.accesses = s.accesses ∧ t.freeCount = s.freeCount

/-- R28 to R32, R39: a read of a register returns its value and has no other effect. -/
def Obligations.RegisterRead : Prop :=
  ∀ (s : State) (r : Reg) (rest : List HostOp), s.pending = .rd r :: rest →
    step s = .next { s with pending := rest, readData := s.readReg r }

/-- R30: KEYVAR reads 0 while KVAR is NONE and 1 while it is AES128, its other bits are 0, and writes of it are ignored. -/
def Obligations.KeyvarRegister : Prop :=
  ∀ (s : State) (rest : List HostOp),
    (s.pending = .rd .keyVar :: rest →
      ∃ t, step s = .next t ∧ t.readData.extractLsb' 2 30 = 0 ∧
        (s.kvar = .none → t.readData.extractLsb' 0 2 = 0) ∧ (s.kvar = .aes128 → t.readData.extractLsb' 0 2 = 1)) ∧
    (∀ v, s.pending = .wr .keyVar v :: rest → step s = .next { s with pending := rest })

/-- R38: writes to read-only registers are ignored; a reserved offset reads 0 and ignores writes; an access of another shape is
refused. (The reading of R38 for widths it does not name is log 12.) -/
def Obligations.RegisterAccessRules : Prop :=
  ∀ (s : State) (rest : List HostOp) (off : Nat) (v : Word),
    (∀ r ∈ [Reg.status, Reg.errInfo, Reg.keyVar], s.pending = .wr r v :: rest →
      step s = .next { s with pending := rest }) ∧
    (0x200 ≤ off → off < 0x360 → s.pending = .regWrite .byte off v :: rest → step s = .next { s with pending := rest }) ∧
    ((0x030 ≤ off ∧ off < 0x200 ∨ 0x360 ≤ off ∧ off < 0x400) → off % 4 = 0 →
      (s.pending = .regRead .word off :: rest → step s = .next { s with pending := rest, readData := 0 }) ∧
      (s.pending = .regWrite .word off v :: rest → step s = .next { s with pending := rest })) ∧
    (off < 0x030 → ∀ width, (width ≠ .word ∨ off % 4 ≠ 0) →
      (s.pending = .regRead width off :: rest → step s = .refused .accessShape) ∧
      (s.pending = .regWrite width off v :: rest → step s = .refused .accessShape)) ∧
    (0x200 ≤ off → off < 0x360 → ∀ width, width ≠ .byte → s.pending = .regRead width off :: rest →
      step s = .refused .accessShape)

/-- R33: while KVAR is AES128 a read of KSWIN[n] returns KS[n] = RK[n div 16][n mod 16] and has no side effect; while it is NONE the
value is unspecified (nothing is said of it) and the rest is unchanged but for the model's own counter; writes are ignored. -/
def Obligations.ScheduleWindowRead : Prop :=
  ∀ (s : State) (rest : List HostOp) (n : Nat), n < 352 →
    (s.pending = .rdks n :: rest →
      (s.kvar = .aes128 →
        step s = .next { s with pending := rest
                                readData := ((s.slot (Fin.ofNat 22 (n / 16))).byte (n % 16)).setWidth 32 }) ∧
      (s.kvar = .none → ∃ (v : Byte) (c : Nat),
        step s = .next { s with pending := rest, readData := v.setWidth 32, freeCount := c })) ∧
    (∀ v, s.pending = .regWrite .byte (0x200 + n) v :: rest → step s = .next { s with pending := rest })

/-- R28: after a write of any word to CMD that the machine does not refuse, CMD holds the word, whatever the command did. -/
def Obligations.CmdHoldsTheWordWritten : Prop :=
  ∀ (s t : State) (w : Word) (rest : List HostOp), s.pending = .wr .cmd w :: rest → step s = .next t → t.cmd = w

/-! ### Reset -/

/-- R37: the values the spec gives for reset. -/
def Obligations.ResetValues : Prop :=
  State.reset.kvar = .none ∧ (∀ r : Reg, State.reset.regValue r = 0) ∧ State.reset.done = false ∧ State.reset.err = false

/-- R190, R191: from any state the reset event leaves no key, zero in every host register, an idle engine whose ENCRYPT and DECRYPT
are turned away, and MEM untouched. -/
def Obligations.ResetEventValues : Prop :=
  ∀ (s : State) (rest : List HostOp), s.pending = .reset :: rest →
    ∃ t, step s = .next t ∧ t.kvar = .none ∧ (∀ r : Reg, t.regValue r = 0) ∧ t.mem = s.mem ∧ t.pending = rest ∧
      ∀ i, i = .encrypt ∨ i = .decrypt →
        ∀ u : State, u.kvar = t.kvar → u.BuffersOk → exec i u = .next { u with status := 0x3, errInfo := 0x5 }

/-- R192: a reset that cuts a command leaves the engine in the reset state, each byte of the command's DST range old or new, and
every other byte of MEM untouched. -/
def Obligations.ResetDuringCommand : Prop :=
  ∀ (s u : State) (w : Word) (rest : List HostOp), s.mem.wf = true → s.pending = .commandCutByReset w :: rest →
    runCommand w { s with pending := rest } = .next u →
    ∃ t, step s = .next t ∧ t.kvar = .none ∧ (∀ r : Reg, t.regValue r = 0) ∧ t.pending = rest ∧
      (∀ a, t.mem.read a = s.mem.read a ∨ t.mem.read a = u.mem.read a) ∧
      (∀ a, (a < s.dstAddr ∨ s.dstAddr + s.srcLen ≤ a) → t.mem.read a = s.mem.read a)

/-! ### KEYLOAD and KEYDISCARD -/

/-- R121: a KEY_LEN other than 16 raises UnsupportedKeySize(KEY) and nothing else happens; it is KEYLOAD's only error. -/
def Obligations.KeyloadOfAnotherLength : Prop :=
  (∀ s : State, s.keyLen ≠ 16 → exec .keyload s = .next { s with status := 0x3, errInfo := 0x11 }) ∧
  (∀ s t : State, s.keyLen = 16 → exec .keyload s = .next t → t.err = false)

/-- R125, R127: where it executes normally KEYLOAD completes with the schedule of the 16 bytes at KEY_ADDR in the store, KVAR =
AES128, STATUS 1, ERRINFO 0, one 16-byte read and no write. -/
def Obligations.KeyloadLoadsTheSchedule : Prop :=
  ∀ s : State, s.KeyLaunch →
    ∃ t, exec .keyload s = .next t ∧ t.KeyOK (s.mem.readBlock s.keyAddr) ∧ t.status = 0x1 ∧ t.errInfo = 0 ∧
      t.mem = s.mem ∧ t.accesses = s.accesses ++ [.read s.keyAddr]

/-- R122, R123, R124: the slots KEYLOAD leaves, word by word: slot 0 is the raw key, each forward slot follows from the one before
by RotWord, SubWord, RCON and the XOR chain, and the decryption region holds slot 10, the InvMixColumns of slots 9 to 1, and
slot 0. -/
def Obligations.KeyloadSlotByRecurrence : Prop :=
  ∀ s : State, s.KeyLaunch →
    ∃ t, exec .keyload s = .next t ∧
      (∀ j < 16, (t.slot 0).byte j = s.mem.read (s.keyAddr + j)) ∧
      (∀ (r : Nat) (h : r < 10),
        let p := t.slot ⟨r, by omega⟩
        let n := t.slot ⟨r + 1, by omega⟩
        n.c0 = p.c0.xor ⟨sbox p.c3.b1 ^^^ rcon r, sbox p.c3.b2, sbox p.c3.b3, sbox p.c3.b0⟩ ∧
        n.c1 = p.c1.xor n.c0 ∧ n.c2 = p.c2.xor n.c1 ∧ n.c3 = p.c3.xor n.c2) ∧
      t.slot 11 = t.slot 10 ∧ t.slot 21 = t.slot 0 ∧
      (∀ (r : Nat) (h₁ : 1 ≤ r) (h₂ : r ≤ 9),
        t.slot ⟨21 - r, by omega⟩ = invMixColumns (t.slot ⟨r, by omega⟩))

/-- R126, R166: what KEYLOAD leaves alone whenever it gives a next state: MEM, the operand registers, CMD, the working registers
and the block index. (The round index, which KEYLOAD counts with, is left free, log 10.) -/
def Obligations.KeyloadFrame : Prop :=
  ∀ s t : State, exec .keyload s = .next t →
    s.SameInterface t ∧ t.mem = s.mem ∧ (∀ a, t.mem.read a = s.mem.read a) ∧ t.st = s.st ∧ t.fb = s.fb ∧ t.lcb = s.lcb ∧
      t.seqI = s.seqI ∧ (t.err = true → t.rk = s.rk ∧ t.kvar = s.kvar ∧ t.accesses = s.accesses ∧ t.seqR = s.seqR)

/-- R128: the store KEYLOAD leaves is a function of the 16 key bytes: nothing else of the state before it matters. -/
def Obligations.KeyloadIsAFunctionOfTheKeyBytes : Prop :=
  ∀ s₁ s₂ : State, s₁.KeyLaunch → s₂.KeyLaunch →
    (∀ j < 16, s₁.mem.read (s₁.keyAddr + j) = s₂.mem.read (s₂.keyAddr + j)) →
    ∃ t₁ t₂, exec .keyload s₁ = .next t₁ ∧ exec .keyload s₂ = .next t₂ ∧ t₁.rk = t₂.rk

/-- R129: KEYDISCARD completes from every state: no key, STATUS 1, ERRINFO 0, no memory access, everything else as before but for
the store, whose bytes become free values; ENCRYPT and DECRYPT with good buffers then fail with UnsupportedOperation. -/
def Obligations.KeydiscardEndsTheKey : Prop :=
  ∀ s : State, ∃ t, exec .keydiscard s = .next t ∧ t.kvar = .none ∧ t.status = 0x1 ∧ t.errInfo = 0 ∧
    s.SameInterface t ∧ t.mem = s.mem ∧ (∀ a, t.mem.read a = s.mem.read a) ∧ t.accesses = s.accesses ∧ t.st = s.st ∧
    t.fb = s.fb ∧ t.lcb = s.lcb ∧ t.seqI = s.seqI ∧ t.seqR = s.seqR ∧
    (s.BuffersOk → ∀ i, i = .encrypt ∨ i = .decrypt → exec i t = .next { t with status := 0x3, errInfo := 0x5 })

/-! ### ENCRYPT and DECRYPT -/

/-- R164: the six checks of ENCRYPT and DECRYPT in order; the first that fails is the one reported, and only STATUS and ERRINFO
change. -/
def Obligations.CipherCheckOrder : Prop :=
  ∀ (s : State) (i : Instr), i = .encrypt ∨ i = .decrypt →
    (s.srcLen = 0 → exec i s = .next { s with status := 0x3, errInfo := 0x32 }) ∧
    (s.srcLen ≠ 0 →
      (s.srcLen % 16 ≠ 0 → exec i s = .next { s with status := 0x3, errInfo := 0x1033 }) ∧
      (s.srcLen % 16 = 0 →
        (s.dstLen % 16 ≠ 0 → exec i s = .next { s with status := 0x3, errInfo := 0x1043 }) ∧
        (s.dstLen % 16 = 0 →
          (s.ivLen ≠ 16 → exec i s = .next { s with status := 0x3, errInfo := 0x22 }) ∧
          (s.ivLen = 16 →
            (s.dstLen < s.srcLen → exec i s = .next { s with status := 0x3, errInfo := 0x44 }) ∧
            (s.srcLen ≤ s.dstLen →
              s.kvar ≠ .aes128 → exec i s = .next { s with status := 0x3, errInfo := 0x05 })))))

/-- R143, R56, R60: ENCRYPT completes wherever the checks pass and the ranges can be launched, whatever the overlap, and the memory
it leaves is that of the access order: block by block, read SRC block i, encrypt it with the feedback, write DST block i. -/
def Obligations.EncryptFollowsTheAccessOrder : Prop :=
  ∀ s : State, s.CipherLaunch →
    ∃ (t : State) (m : Nat → Memory) (c : Nat → Block),
      exec .encrypt s = .next t ∧ t.status = 0x1 ∧ t.errInfo = 0 ∧ m 0 = s.mem ∧ t.mem = m s.blockCount ∧
      ∀ i < s.blockCount,
        c i = encryptBlock s.rk (((m i).readBlock (s.srcAddr + 16 * i)).xor
          (if i = 0 then s.ivBlock else c (i - 1))) ∧
        m (i + 1) = (m i).writeBlock (s.dstAddr + 16 * i) (c i)

/-- R153, R56, R60: the same for DECRYPT; the feedback is the ciphertext block as it was read. -/
def Obligations.DecryptFollowsTheAccessOrder : Prop :=
  ∀ s : State, s.CipherLaunch →
    ∃ (t : State) (m : Nat → Memory) (l : Nat → Block),
      exec .decrypt s = .next t ∧ t.status = 0x1 ∧ t.errInfo = 0 ∧ m 0 = s.mem ∧ t.mem = m s.blockCount ∧
      ∀ i < s.blockCount,
        l i = (m i).readBlock (s.srcAddr + 16 * i) ∧
        m (i + 1) = (m i).writeBlock (s.dstAddr + 16 * i)
          ((decryptBlock s.rk (l i)).xor (if i = 0 then s.ivBlock else l (i - 1)))

/-- R143, R60: where no output block lands on input still to be read (in place included), each ciphertext block left in memory is
the block cipher of its plaintext block XOR the ciphertext block before it, or the IV. -/
def Obligations.EncryptChainsItsBlocks : Prop :=
  ∀ s : State, s.mem.wf = true → s.CipherLaunch → s.NoForwardOverlap →
    ∃ t, exec .encrypt s = .next t ∧ t.status = 0x1 ∧ t.errInfo = 0 ∧
      ∀ i < s.blockCount,
        t.mem.readBlock (s.dstAddr + 16 * i) =
          encryptBlock s.rk ((s.srcBlock i).xor
            (if i = 0 then s.ivBlock else t.mem.readBlock (s.dstAddr + 16 * (i - 1))))

/-- R153, R155, R60: under the same premise each plaintext block is the inverse block cipher of its ciphertext block XOR the
ciphertext block before it, or the IV: it depends on nothing else. -/
def Obligations.DecryptChainsItsBlocks : Prop :=
  ∀ s : State, s.mem.wf = true → s.CipherLaunch → s.NoForwardOverlap →
    ∃ t, exec .decrypt s = .next t ∧ t.status = 0x1 ∧ t.errInfo = 0 ∧
      ∀ i < s.blockCount,
        t.mem.readBlock (s.dstAddr + 16 * i) =
          (decryptBlock s.rk (s.srcBlock i)).xor (if i = 0 then s.ivBlock else s.srcBlock (i - 1))

/-- R144, R154, R166: what ENCRYPT and DECRYPT leave alone whenever they give a next state: the store, the tag, the interface
registers, every byte outside the SRC_LEN bytes from DST_ADDR, all of MEM on failure; ENCRYPT also leaves LCB. (The working
registers the command used are left free, log 10.) -/
def Obligations.CipherFrame : Prop :=
  ∀ (s t : State) (i : Instr), i = .encrypt ∨ i = .decrypt → exec i s = .next t →
    s.SameInterface t ∧ t.rk = s.rk ∧ t.kvar = s.kvar ∧ t.mem.aw = s.mem.aw ∧ t.mem.map = s.mem.map ∧
    (i = .encrypt → t.lcb = s.lcb) ∧
    (∀ a, (a < s.dstAddr ∨ s.dstAddr + s.srcLen ≤ a) → t.mem.read a = s.mem.read a) ∧
    (t.err = true → t = { s with status := t.status, errInfo := t.errInfo })

/-- R56: the memory accesses of each command, in the order it makes them; a failed command makes none. -/
def Obligations.AccessesInOrder : Prop :=
  (∀ s : State, s.KeyLaunch →
    ∃ t, exec .keyload s = .next t ∧ t.accesses = s.accesses ++ [.read s.keyAddr]) ∧
  (∀ (s : State) (i : Instr), i = .encrypt ∨ i = .decrypt → s.CipherLaunch →
    ∃ t, exec i s = .next t ∧
      t.accesses = s.accesses ++ .read s.ivAddr ::
        (List.range s.blockCount).flatMap fun j =>
          [.read (s.srcAddr + 16 * j), .write (s.dstAddr + 16 * j)]) ∧
  (∀ s : State, ∃ t, exec .keydiscard s = .next t ∧ t.accesses = s.accesses) ∧
  (∀ (s t : State) (i : Instr), exec i s = .next t → t.err = true → t.accesses = s.accesses)

/-- R203: which checks fail, whether the command runs, and which addresses it accesses depend on the operand registers, KVAR and
the platform's AW and memory map, never on a byte of memory or of the store. -/
def Obligations.ControlFlowIgnoresData : Prop :=
  ∀ (s₁ s₂ t₁ : State) (i : Instr),
    s₁.keyOperands = s₂.keyOperands → s₁.cipherOperands = s₂.cipherOperands → s₁.kvar = s₂.kvar →
    s₁.mem.aw = s₂.mem.aw → s₁.mem.map = s₂.mem.map → s₁.accesses = s₂.accesses → exec i s₁ = .next t₁ →
    ∃ t₂, exec i s₂ = .next t₂ ∧ t₂.accesses = t₁.accesses ∧ t₂.status = t₁.status ∧ t₂.errInfo = t₁.errInfo ∧
      t₂.kvar = t₁.kvar

/-- R155: the inverse block cipher undoes the block cipher, for every key and every block. -/
def Obligations.BlockDecryptInvertsEncrypt : Prop :=
  ∀ (k x : Block), decryptBlock (keySchedule k) (encryptBlock (keySchedule k) x) = x

/-- R155: the round trip through the commands: ENCRYPT a message, then DECRYPT those ciphertext blocks, wherever they now stand,
with the same key and IV: every plaintext block comes back. -/
def Obligations.CommandRoundTrip : Prop :=
  ∀ (k : Block) (s : State), s.mem.wf = true → s.KeyOK k → s.CipherLaunch → s.NoForwardOverlap →
    ∃ t, exec .encrypt s = .next t ∧
      ∀ u : State, u.mem.wf = true → u.CipherLaunch → u.NoForwardOverlap → u.rk = t.rk → u.srcLen = s.srcLen →
        u.ivBlock = s.ivBlock →
        (∀ i < s.blockCount, u.srcBlock i = t.mem.readBlock (s.dstAddr + 16 * i)) →
        ∃ v, exec .decrypt u = .next v ∧
          ∀ i < s.blockCount, v.mem.readBlock (u.dstAddr + 16 * i) = s.srcBlock i

/-- R145: ciphertext block i depends only on the store, the IV and plaintext blocks 0..i: two messages, of any two lengths and at
any addresses, that begin alike have ciphertexts that begin alike. -/
def Obligations.LeadingCiphertextBlocksDependOnLeadingPlaintext : Prop :=
  ∀ (s₁ s₂ : State) (n : Nat), s₁.mem.wf = true → s₂.mem.wf = true → s₁.CipherLaunch → s₂.CipherLaunch →
    s₁.NoForwardOverlap → s₂.NoForwardOverlap → s₁.rk = s₂.rk → s₁.ivBlock = s₂.ivBlock →
    n ≤ s₁.blockCount → n ≤ s₂.blockCount → (∀ i < n, s₁.srcBlock i = s₂.srcBlock i) →
    ∃ t₁ t₂, exec .encrypt s₁ = .next t₁ ∧ exec .encrypt s₂ = .next t₂ ∧
      ∀ i < n, t₁.mem.readBlock (s₁.dstAddr + 16 * i) = t₂.mem.readBlock (s₂.dstAddr + 16 * i)

/-- R155: where two runs with one key differ by δ in ciphertext block i and agree in block i + 1, plaintext block i + 1 differs by
exactly δ. -/
def Obligations.CiphertextChangeFlipsTheNextBlock : Prop :=
  ∀ (s₁ s₂ : State) (i : Nat) (δ : Block), s₁.mem.wf = true → s₂.mem.wf = true → s₁.CipherLaunch → s₂.CipherLaunch →
    s₁.NoForwardOverlap → s₂.NoForwardOverlap → s₁.rk = s₂.rk → i + 1 < s₁.blockCount → i + 1 < s₂.blockCount →
    s₂.srcBlock i = (s₁.srcBlock i).xor δ → s₂.srcBlock (i + 1) = s₁.srcBlock (i + 1) →
    ∃ t₁ t₂, exec .decrypt s₁ = .next t₁ ∧ exec .decrypt s₂ = .next t₂ ∧
      t₂.mem.readBlock (s₂.dstAddr + 16 * (i + 1)) =
        (t₁.mem.readBlock (s₁.dstAddr + 16 * (i + 1))).xor δ

/-- R26: inside ENCRYPT and DECRYPT the block index is the number of blocks already written: after j turns of the loop it is j, and
for an AW-bit SRC_LEN that fits in AW - 4 bits. -/
def Obligations.SequencerCountsTheBlocks : Prop :=
  ∀ (s : State) (j : Nat), j ≤ s.blockCount →
    ((State.encryptStep s.cipherOperands)^[j] (s.loadIv s.cipherOperands)).seqI = j ∧
    ((State.decryptStep s.cipherOperands)^[j] (s.loadIv s.cipherOperands)).seqI = j ∧
    (s.srcLen < 2 ^ s.mem.aw → j < 2 ^ (s.mem.aw - 4))

/-- R26, R125: the round index counts 1 to 10 inside KEYLOAD, where turn r adds N[r] to the keys before it and changes nothing else of
the state, and rounds 1 to 9 and then 10 inside each block of ENCRYPT and DECRYPT. -/
def Obligations.SequencerCountsTheRounds : Prop :=
  ∀ (s : State) (k : Block) (o : CipherOperands) (j : Nat), 1 ≤ j →
    (j ≤ 10 →
      (([1, 2, 3, 4, 5, 6, 7, 8, 9, 10] : List Nat).take j).foldl State.keyRound ([k], s) =
        ((List.range (j + 1)).map (forwardKey k), { s with seqR := BitVec.ofNat 4 j })) ∧
    (j ≤ 9 →
      ((([1, 2, 3, 4, 5, 6, 7, 8, 9] : List (Fin 22)).take j).foldl State.encryptRound s).seqR = BitVec.ofNat 4 j ∧
      ((([1, 2, 3, 4, 5, 6, 7, 8, 9] : List (Fin 22)).take j).foldl State.decryptRound s).seqR = BitVec.ofNat 4 j) ∧
    (s.encryptStep o).seqR = 10 ∧ (s.decryptStep o).seqR = 10

/-- R51, 93_implementation_defined.md U4, U5: a command whose checks pass but one of whose ranges wraps, is absent or is a device is
refused, under a name that says which kind of range it was. -/
def Obligations.BadRangesAreRefused : Prop :=
  (∀ s : State, s.keyLen = 16 → ¬ s.mem.RangeOk s.keyAddr 16 →
    ∃ r ∈ [Refusal.rangeWraps, Refusal.rangeAbsent, Refusal.rangeDevice], exec .keyload s = .refused r) ∧
  (∀ (s : State) (i : Instr), i = .encrypt ∨ i = .decrypt → s.BuffersOk → s.kvar = .aes128 → ¬ s.RangesOk →
    ∃ r ∈ [Refusal.rangeWraps, Refusal.rangeAbsent, Refusal.rangeDevice], exec i s = .refused r)

/-! ### The whole machine -/

/-- The reset state meets the invariant (memory in canonical form, no half-loaded key, legal status words, AW-bit registers). -/
def Obligations.ResetMeetsTheInvariant : Prop := State.reset.Inv

/-- R21, R26, R29, R31, R127, R163: every step keeps the invariant: memory in canonical form, a loaded key always the whole schedule
of slot 0, STATUS and ERRINFO always a legal pair, the operand registers within AW bits and the block index within AW - 4, whatever
the parameter AW is. -/
def Obligations.StepKeepsTheInvariant : Prop :=
  ∀ s t : State, s.Inv → step s = .next t → t.Inv

/-- R23: the store changes only by a successful KEYLOAD, a KEYDISCARD, or reset. -/
def Obligations.StoreIsImmutable : Prop :=
  ∀ (s t : State) (op : HostOp) (rest : List HostOp), s.pending = op :: rest → step s = .next t → t.rk ≠ s.rk →
    (op = .wr .cmd 0x00000001 ∧ t.err = false) ∨ op = .wr .cmd 0x00000004 ∨ op = .reset ∨
      ∃ w, op = .commandCutByReset w

/-- R127, R23: a successful KEYLOAD establishes KeyOK of the key bytes it read, and every step keeps KeyOK but a successful KEYLOAD, a
KEYDISCARD, or reset. -/
def Obligations.LoadedKeyStaysLoaded : Prop :=
  (∀ s t : State, exec .keyload s = .next t → t.err = false → t.KeyOK (s.mem.readBlock s.keyAddr)) ∧
  ∀ (s t : State) (k : Block), s.KeyOK k → step s = .next t →
    t.KeyOK k ∨ ∃ (op : HostOp) (rest : List HostOp), s.pending = op :: rest ∧
      ((op = .wr .cmd 0x00000001 ∧ t.err = false) ∨ op = .wr .cmd 0x00000004 ∨ op = .reset ∨ ∃ w, op = .commandCutByReset w)

/-- R24: KVAR goes to AES128 by a successful KEYLOAD only, to NONE by reset and KEYDISCARD only, and is unchanged by everything
else. -/
def Obligations.KeyTagChangesOnlyByLoadDiscardReset : Prop :=
  ∀ (s t : State) (op : HostOp) (rest : List HostOp), s.pending = op :: rest → step s = .next t → t.kvar ≠ s.kvar →
    (t.kvar = .aes128 ∧ op = .wr .cmd 0x00000001 ∧ t.err = false) ∨
    (t.kvar = .none ∧ (op = .wr .cmd 0x00000004 ∨ op = .reset ∨ ∃ w, op = .commandCutByReset w))

/-- R39, R53, R56, R192: a byte of MEM changes only by a successful ENCRYPT or DECRYPT, a host store to that byte, or a command cut by
reset. -/
def Obligations.MemoryChangesOnlyByCipherOrHost : Prop :=
  ∀ (s t : State) (op : HostOp) (rest : List HostOp) (a : Nat), s.pending = op :: rest → step s = .next t →
    t.mem.read a ≠ s.mem.read a →
    ((op = .wr .cmd 0x00000002 ∨ op = .wr .cmd 0x00000003) ∧ t.err = false ∧ s.dstAddr ≤ a ∧
      a < s.dstAddr + s.srcLen) ∨
    (∃ v : Byte, op = .memWrite a v) ∨ ∃ w, op = .commandCutByReset w

/-- R166, R171: a command, or an illegal word, that ends with ERR set has changed nothing but CMD, STATUS and ERRINFO. -/
def Obligations.FailedCommandChangesOnlyTheStatus : Prop :=
  ∀ (s t : State) (w : Word), runCommand w s = .next t → t.err = true →
    t = { s with cmd := w, status := 0x3, errInfo := t.errInfo }

/-- R163, R167: ERRINFO after a command is 0 with ERR clear, or one of the eight values with ERR set; DONE is set either way. -/
def Obligations.ErrinfoValues : Prop :=
  ∀ (s t : State) (w : Word), runCommand w s = .next t →
    t.done = true ∧
    ((t.err = false ∧ t.status = 0x1 ∧ t.errInfo = 0) ∨
     (t.err = true ∧ t.status = 0x3 ∧
      t.errInfo ∈ [0x11#32, 0x32#32, 0x22#32, 0x1033#32, 0x1043#32, 0x44#32, 0x05#32, 0x07#32]))

/-- R31, R168: DONE, once set, stays set until reset. -/
def Obligations.DoneIsClearedOnlyByReset : Prop :=
  ∀ (s t : State) (op : HostOp) (rest : List HostOp), s.pending = op :: rest → step s = .next t → s.done = true →
    t.done = false → op = .reset ∨ ∃ w, op = .commandCutByReset w

/-- R34, R168: no command's result depends on STATUS or ERRINFO, and both are overwritten: an earlier outcome leaves no trace. -/
def Obligations.CommandsIgnoreTheOldStatus : Prop :=
  ∀ (s : State) (w status errInfo : Word),
    runCommand w { s with status := status, errInfo := errInfo } = runCommand w s

/-- R25, R36: no command's result depends on what ST, FB, LCB or the sequencer held before it: memory, store, tag, status words and
accesses come out the same. -/
def Obligations.CommandsIgnoreTheOldWorkingRegisters : Prop :=
  ∀ (s t : State) (i : Instr) (st fb lcb : Block) (n : Nat) (r : BitVec 4), exec i s = .next t →
    ∃ t', exec i { s with st := st, fb := fb, lcb := lcb, seqI := n, seqR := r } = .next t' ∧
      t'.mem = t.mem ∧ t'.rk = t.rk ∧ t'.kvar = t.kvar ∧ t'.status = t.status ∧ t'.errInfo = t.errInfo ∧
      t'.accesses = t.accesses

/-! ### Memory -/

/-- R53: MemWrite stores byte j at addr + j and changes no other byte. -/
def Obligations.BlockWriteStoresItsBytes : Prop :=
  ∀ (m : Memory) (a : Nat) (v : Block) (x : Nat), m.wf = true →
    (m.writeBlock a v).read x = if a ≤ x ∧ x < a + 16 then v.byte (x - a) else m.read x

/-- R39: a host store to ordinary memory is seen by the host load that follows it, and changes no other byte; both leave the engine
alone. -/
def Obligations.HostStoreThenLoad : Prop :=
  ∀ (s : State) (x : Nat) (v : Byte) (rest : List HostOp), s.mem.wf = true → s.mem.kindAt x = some .ordinary →
    s.pending = .memWrite x v :: .memRead x :: rest →
    ∃ t u, step s = .next t ∧ step t = .next u ∧ u.readData = v.setWidth 32 ∧
      (∀ a, a ≠ x → u.mem.read a = s.mem.read a) ∧
      u = { s with mem := u.mem, readData := u.readData, pending := rest }

/-! ### Round primitives -/

/-- R92: gmul adds up the doublings of its first factor that the bits of the second select; it is commutative, associative,
distributes over ⊕, and is as the rule lists on the constants. -/
def Obligations.GmulFieldLaws : Prop :=
  (∀ a b : Byte, gmul a b = (List.range 8).foldl (fun p k => if b.getLsbD k then p ^^^ xtime^[k] a else p) 0x00) ∧
  (∀ a b : Byte, gmul a b = gmul b a) ∧ (∀ a b c : Byte, gmul (gmul a b) c = gmul a (gmul b c)) ∧
  (∀ a b c : Byte, gmul a (b ^^^ c) = gmul a b ^^^ gmul a c) ∧
  (∀ a : Byte, gmul a 0x01 = a ∧ gmul a 0x00 = 0x00 ∧ gmul a 0x02 = xtime a ∧ gmul a 0x03 = xtime a ^^^ a ∧
    let x2 := xtime a
    let x4 := xtime x2
    let x8 := xtime x4
    gmul a 0x09 = x8 ^^^ a ∧ gmul a 0x0B = x8 ^^^ x2 ^^^ a ∧ gmul a 0x0D = x8 ^^^ x4 ^^^ a ∧ gmul a 0x0E = x8 ^^^ x4 ^^^ x2) ∧
  gmul 0x57 0x83 = 0xC1 ∧ gmul 0x57 0x13 = 0xFE

/-- R93: ginv of a non-zero byte is the one byte whose product with it is 1, and ginv(0) = 0. -/
def Obligations.GinvIsTheInverse : Prop :=
  (∀ a x : Byte, a ≠ 0 → (gmul a x = 0x01 ↔ x = ginv a)) ∧ ginv 0x00 = 0x00 ∧ ginv 0x01 = 0x01 ∧ ginv 0x53 = 0xCA

/-- R94: the S-box table the machine uses is the affine map of the inverse, entry by entry; it has no fixed point and no opposite
fixed point. -/
def Obligations.SboxIsTheAffineMapOfTheInverse : Prop :=
  (∀ (b : Byte) (i : Nat), i < 8 →
    let y := ginv b
    (sbox b).getLsbD i =
      (y.getLsbD i ^^ y.getLsbD ((i + 4) % 8) ^^ y.getLsbD ((i + 5) % 8) ^^ y.getLsbD ((i + 6) % 8) ^^
        y.getLsbD ((i + 7) % 8) ^^ (0x63#8).getLsbD i)) ∧
  sbox 0x00 = 0x63 ∧ sbox 0xFF = 0x16 ∧ (∀ b : Byte, sbox b ≠ b) ∧ (∀ b : Byte, sbox b ≠ b ^^^ 0xFF)

/-- R95: INVSBOX is the inverse permutation of SBOX. -/
def Obligations.InvSboxIsTheInversePermutation : Prop :=
  (∀ b : Byte, invSbox (sbox b) = b) ∧ (∀ b : Byte, sbox (invSbox b) = b) ∧
  invSbox 0x00 = 0x52 ∧ invSbox 0x63 = 0x00 ∧ invSbox 0xFF = 0x7D

/-- R98, R99: ShiftRows and InvShiftRows by byte index. -/
def Obligations.ShiftRowsByIndex : Prop :=
  ∀ (b : Block) (row col : Fin 4), invShiftRows (shiftRows b) = b ∧
    (shiftRows b).byte (row.val + 4 * col.val) = b.byte (row.val + 4 * ((col.val + row.val) % 4)) ∧
    (invShiftRows b).byte (row.val + 4 * col.val) = b.byte (row.val + 4 * ((col.val + 4 - row.val) % 4))

/-- R102: MixColumns and InvMixColumns are linear over ⊕, so a key may be added after InvMixColumns if it is transformed first. -/
def Obligations.MixColumnsAreLinear : Prop :=
  (∀ a b : Block, invMixColumns (a.xor b) = (invMixColumns a).xor (invMixColumns b)) ∧
  (∀ a b : Block, mixColumns (a.xor b) = (mixColumns a).xor (mixColumns b))

/-- R101, R108: the inverse laws of the transforms and of the two round functions. -/
def Obligations.RoundInverseLaws : Prop :=
  (∀ s : Block, invSubBytes (subBytes s) = s ∧ invShiftRows (shiftRows s) = s ∧ invMixColumns (mixColumns s) = s ∧
    mixColumns (invMixColumns s) = s ∧ invSubBytes (invShiftRows s) = invShiftRows (invSubBytes s)) ∧
  (∀ s k : Block, s = invSubBytes (invShiftRows (invMixColumns ((aesRound s k).xor k)))) ∧
  (∀ t k : Block, invMixColumns (t.xor k) = (invMixColumns t).xor (invMixColumns k)) ∧
  (∀ s k : Block, s = invSubBytes (invShiftRows ((aesFinalRound s k).xor k)))

/-- R111: RCON starts at 1 and each next one is the double of the one before, through 0x36. -/
def Obligations.RconIsSuccessiveDoubling : Prop :=
  rcon 0 = 0x01 ∧ (∀ k < 9, rcon (k + 1) = xtime (rcon k)) ∧ rcon 9 = 0x36
end

