-- ==== Sys2Proof/Laws/State.lean ====
section
/-! SUPPORT. What each state update does to each field, one lemma a field, so that no proof unfolds a record update. -/

namespace Sys2Proof.Machine

section
variable (s : State) (e : CommandError)

@[simp] theorem State.raise_rk : (s.raise e).rk = s.rk := rfl
@[simp] theorem State.raise_kvar : (s.raise e).kvar = s.kvar := rfl
@[simp] theorem State.raise_st : (s.raise e).st = s.st := rfl
@[simp] theorem State.raise_fb : (s.raise e).fb = s.fb := rfl
@[simp] theorem State.raise_lcb : (s.raise e).lcb = s.lcb := rfl
@[simp] theorem State.raise_seqI : (s.raise e).seqI = s.seqI := rfl
@[simp] theorem State.raise_seqR : (s.raise e).seqR = s.seqR := rfl
@[simp] theorem State.raise_cmd : (s.raise e).cmd = s.cmd := rfl
@[simp] theorem State.raise_status : (s.raise e).status = statusWord true true := rfl
@[simp] theorem State.raise_errInfo : (s.raise e).errInfo = e.errInfo := rfl
@[simp] theorem State.raise_keyAddr : (s.raise e).keyAddr = s.keyAddr := rfl
@[simp] theorem State.raise_keyLen : (s.raise e).keyLen = s.keyLen := rfl
@[simp] theorem State.raise_ivAddr : (s.raise e).ivAddr = s.ivAddr := rfl
@[simp] theorem State.raise_ivLen : (s.raise e).ivLen = s.ivLen := rfl
@[simp] theorem State.raise_srcAddr : (s.raise e).srcAddr = s.srcAddr := rfl
@[simp] theorem State.raise_srcLen : (s.raise e).srcLen = s.srcLen := rfl
@[simp] theorem State.raise_dstAddr : (s.raise e).dstAddr = s.dstAddr := rfl
@[simp] theorem State.raise_dstLen : (s.raise e).dstLen = s.dstLen := rfl
@[simp] theorem State.raise_mem : (s.raise e).mem = s.mem := rfl
@[simp] theorem State.raise_pending : (s.raise e).pending = s.pending := rfl
@[simp] theorem State.raise_readData : (s.raise e).readData = s.readData := rfl
@[simp] theorem State.raise_accesses : (s.raise e).accesses = s.accesses := rfl
@[simp] theorem State.raise_freeCount : (s.raise e).freeCount = s.freeCount := rfl
@[simp] theorem State.raise_slot (i : Fin 22) : (s.raise e).slot i = s.slot i := rfl

end

section
variable (s : State)

@[simp] theorem State.complete_rk : (s.complete).rk = s.rk := rfl
@[simp] theorem State.complete_kvar : (s.complete).kvar = s.kvar := rfl
@[simp] theorem State.complete_st : (s.complete).st = s.st := rfl
@[simp] theorem State.complete_fb : (s.complete).fb = s.fb := rfl
@[simp] theorem State.complete_lcb : (s.complete).lcb = s.lcb := rfl
@[simp] theorem State.complete_seqI : (s.complete).seqI = s.seqI := rfl
@[simp] theorem State.complete_seqR : (s.complete).seqR = s.seqR := rfl
@[simp] theorem State.complete_cmd : (s.complete).cmd = s.cmd := rfl
@[simp] theorem State.complete_status : (s.complete).status = statusWord true false := rfl
@[simp] theorem State.complete_errInfo : (s.complete).errInfo = 0 := rfl
@[simp] theorem State.complete_keyAddr : (s.complete).keyAddr = s.keyAddr := rfl
@[simp] theorem State.complete_keyLen : (s.complete).keyLen = s.keyLen := rfl
@[simp] theorem State.complete_ivAddr : (s.complete).ivAddr = s.ivAddr := rfl
@[simp] theorem State.complete_ivLen : (s.complete).ivLen = s.ivLen := rfl
@[simp] theorem State.complete_srcAddr : (s.complete).srcAddr = s.srcAddr := rfl
@[simp] theorem State.complete_srcLen : (s.complete).srcLen = s.srcLen := rfl
@[simp] theorem State.complete_dstAddr : (s.complete).dstAddr = s.dstAddr := rfl
@[simp] theorem State.complete_dstLen : (s.complete).dstLen = s.dstLen := rfl
@[simp] theorem State.complete_mem : (s.complete).mem = s.mem := rfl
@[simp] theorem State.complete_pending : (s.complete).pending = s.pending := rfl
@[simp] theorem State.complete_readData : (s.complete).readData = s.readData := rfl
@[simp] theorem State.complete_accesses : (s.complete).accesses = s.accesses := rfl
@[simp] theorem State.complete_freeCount : (s.complete).freeCount = s.freeCount := rfl
@[simp] theorem State.complete_slot (i : Fin 22) : (s.complete).slot i = s.slot i := rfl

end

section
variable (s : State) (a : Nat)

@[simp] theorem State.memRead_snd_rk : ((s.memRead a).2).rk = s.rk := rfl
@[simp] theorem State.memRead_snd_kvar : ((s.memRead a).2).kvar = s.kvar := rfl
@[simp] theorem State.memRead_snd_st : ((s.memRead a).2).st = s.st := rfl
@[simp] theorem State.memRead_snd_fb : ((s.memRead a).2).fb = s.fb := rfl
@[simp] theorem State.memRead_snd_lcb : ((s.memRead a).2).lcb = s.lcb := rfl
@[simp] theorem State.memRead_snd_seqI : ((s.memRead a).2).seqI = s.seqI := rfl
@[simp] theorem State.memRead_snd_seqR : ((s.memRead a).2).seqR = s.seqR := rfl
@[simp] theorem State.memRead_snd_cmd : ((s.memRead a).2).cmd = s.cmd := rfl
@[simp] theorem State.memRead_snd_status : ((s.memRead a).2).status = s.status := rfl
@[simp] theorem State.memRead_snd_errInfo : ((s.memRead a).2).errInfo = s.errInfo := rfl
@[simp] theorem State.memRead_snd_keyAddr : ((s.memRead a).2).keyAddr = s.keyAddr := rfl
@[simp] theorem State.memRead_snd_keyLen : ((s.memRead a).2).keyLen = s.keyLen := rfl
@[simp] theorem State.memRead_snd_ivAddr : ((s.memRead a).2).ivAddr = s.ivAddr := rfl
@[simp] theorem State.memRead_snd_ivLen : ((s.memRead a).2).ivLen = s.ivLen := rfl
@[simp] theorem State.memRead_snd_srcAddr : ((s.memRead a).2).srcAddr = s.srcAddr := rfl
@[simp] theorem State.memRead_snd_srcLen : ((s.memRead a).2).srcLen = s.srcLen := rfl
@[simp] theorem State.memRead_snd_dstAddr : ((s.memRead a).2).dstAddr = s.dstAddr := rfl
@[simp] theorem State.memRead_snd_dstLen : ((s.memRead a).2).dstLen = s.dstLen := rfl
@[simp] theorem State.memRead_snd_mem : ((s.memRead a).2).mem = s.mem := rfl
@[simp] theorem State.memRead_snd_pending : ((s.memRead a).2).pending = s.pending := rfl
@[simp] theorem State.memRead_snd_readData : ((s.memRead a).2).readData = s.readData := rfl
@[simp] theorem State.memRead_snd_accesses : ((s.memRead a).2).accesses = s.accesses ++ [.read a] := rfl
@[simp] theorem State.memRead_snd_freeCount : ((s.memRead a).2).freeCount = s.freeCount := rfl
@[simp] theorem State.memRead_snd_slot (i : Fin 22) : ((s.memRead a).2).slot i = s.slot i := rfl

end

section
variable (s : State) (a : Nat) (v : Block)

@[simp] theorem State.memWrite_rk : (s.memWrite a v).rk = s.rk := by simp only [State.memWrite]
@[simp] theorem State.memWrite_kvar : (s.memWrite a v).kvar = s.kvar := by simp only [State.memWrite]
@[simp] theorem State.memWrite_st : (s.memWrite a v).st = s.st := by simp only [State.memWrite]
@[simp] theorem State.memWrite_fb : (s.memWrite a v).fb = s.fb := by simp only [State.memWrite]
@[simp] theorem State.memWrite_lcb : (s.memWrite a v).lcb = s.lcb := by simp only [State.memWrite]
@[simp] theorem State.memWrite_seqI : (s.memWrite a v).seqI = s.seqI := by simp only [State.memWrite]
@[simp] theorem State.memWrite_seqR : (s.memWrite a v).seqR = s.seqR := by simp only [State.memWrite]
@[simp] theorem State.memWrite_cmd : (s.memWrite a v).cmd = s.cmd := by simp only [State.memWrite]
@[simp] theorem State.memWrite_status : (s.memWrite a v).status = s.status := by simp only [State.memWrite]
@[simp] theorem State.memWrite_errInfo : (s.memWrite a v).errInfo = s.errInfo := by simp only [State.memWrite]
@[simp] theorem State.memWrite_keyAddr : (s.memWrite a v).keyAddr = s.keyAddr := by simp only [State.memWrite]
@[simp] theorem State.memWrite_keyLen : (s.memWrite a v).keyLen = s.keyLen := by simp only [State.memWrite]
@[simp] theorem State.memWrite_ivAddr : (s.memWrite a v).ivAddr = s.ivAddr := by simp only [State.memWrite]
@[simp] theorem State.memWrite_ivLen : (s.memWrite a v).ivLen = s.ivLen := by simp only [State.memWrite]
@[simp] theorem State.memWrite_srcAddr : (s.memWrite a v).srcAddr = s.srcAddr := by simp only [State.memWrite]
@[simp] theorem State.memWrite_srcLen : (s.memWrite a v).srcLen = s.srcLen := by simp only [State.memWrite]
@[simp] theorem State.memWrite_dstAddr : (s.memWrite a v).dstAddr = s.dstAddr := by simp only [State.memWrite]
@[simp] theorem State.memWrite_dstLen : (s.memWrite a v).dstLen = s.dstLen := by simp only [State.memWrite]
@[simp] theorem State.memWrite_mem : (s.memWrite a v).mem = s.mem.writeBlock a v := by simp only [State.memWrite]
@[simp] theorem State.memWrite_pending : (s.memWrite a v).pending = s.pending := by simp only [State.memWrite]
@[simp] theorem State.memWrite_readData : (s.memWrite a v).readData = s.readData := by simp only [State.memWrite]
@[simp] theorem State.memWrite_accesses : (s.memWrite a v).accesses = s.accesses ++ [.write a] := by simp only [State.memWrite]
@[simp] theorem State.memWrite_freeCount : (s.memWrite a v).freeCount = s.freeCount := by simp only [State.memWrite]
@[simp] theorem State.memWrite_slot (i : Fin 22) : (s.memWrite a v).slot i = s.slot i := by simp only [State.slot, State.memWrite]

end

section
variable (s : State)

@[simp] theorem State.forgetStore_rk : (s.forgetStore).rk = freeStore s.freeCount := by simp only [State.forgetStore]
@[simp] theorem State.forgetStore_kvar : (s.forgetStore).kvar = s.kvar := by simp only [State.forgetStore]
@[simp] theorem State.forgetStore_st : (s.forgetStore).st = s.st := by simp only [State.forgetStore]
@[simp] theorem State.forgetStore_fb : (s.forgetStore).fb = s.fb := by simp only [State.forgetStore]
@[simp] theorem State.forgetStore_lcb : (s.forgetStore).lcb = s.lcb := by simp only [State.forgetStore]
@[simp] theorem State.forgetStore_seqI : (s.forgetStore).seqI = s.seqI := by simp only [State.forgetStore]
@[simp] theorem State.forgetStore_seqR : (s.forgetStore).seqR = s.seqR := by simp only [State.forgetStore]
@[simp] theorem State.forgetStore_cmd : (s.forgetStore).cmd = s.cmd := by simp only [State.forgetStore]
@[simp] theorem State.forgetStore_status : (s.forgetStore).status = s.status := by simp only [State.forgetStore]
@[simp] theorem State.forgetStore_errInfo : (s.forgetStore).errInfo = s.errInfo := by simp only [State.forgetStore]
@[simp] theorem State.forgetStore_keyAddr : (s.forgetStore).keyAddr = s.keyAddr := by simp only [State.forgetStore]
@[simp] theorem State.forgetStore_keyLen : (s.forgetStore).keyLen = s.keyLen := by simp only [State.forgetStore]
@[simp] theorem State.forgetStore_ivAddr : (s.forgetStore).ivAddr = s.ivAddr := by simp only [State.forgetStore]
@[simp] theorem State.forgetStore_ivLen : (s.forgetStore).ivLen = s.ivLen := by simp only [State.forgetStore]
@[simp] theorem State.forgetStore_srcAddr : (s.forgetStore).srcAddr = s.srcAddr := by simp only [State.forgetStore]
@[simp] theorem State.forgetStore_srcLen : (s.forgetStore).srcLen = s.srcLen := by simp only [State.forgetStore]
@[simp] theorem State.forgetStore_dstAddr : (s.forgetStore).dstAddr = s.dstAddr := by simp only [State.forgetStore]
@[simp] theorem State.forgetStore_dstLen : (s.forgetStore).dstLen = s.dstLen := by simp only [State.forgetStore]
@[simp] theorem State.forgetStore_mem : (s.forgetStore).mem = s.mem := by simp only [State.forgetStore]
@[simp] theorem State.forgetStore_pending : (s.forgetStore).pending = s.pending := by simp only [State.forgetStore]
@[simp] theorem State.forgetStore_readData : (s.forgetStore).readData = s.readData := by simp only [State.forgetStore]
@[simp] theorem State.forgetStore_accesses : (s.forgetStore).accesses = s.accesses := by simp only [State.forgetStore]
@[simp] theorem State.forgetStore_freeCount : (s.forgetStore).freeCount = s.freeCount + Config.scheduleBytes := by simp only [State.forgetStore]

end

section
variable (s : State)

@[simp] theorem State.forgetRound_rk : (s.forgetRound).rk = s.rk := by simp only [State.forgetRound]
@[simp] theorem State.forgetRound_kvar : (s.forgetRound).kvar = s.kvar := by simp only [State.forgetRound]
@[simp] theorem State.forgetRound_st : (s.forgetRound).st = s.st := by simp only [State.forgetRound]
@[simp] theorem State.forgetRound_fb : (s.forgetRound).fb = s.fb := by simp only [State.forgetRound]
@[simp] theorem State.forgetRound_lcb : (s.forgetRound).lcb = s.lcb := by simp only [State.forgetRound]
@[simp] theorem State.forgetRound_seqI : (s.forgetRound).seqI = s.seqI := by simp only [State.forgetRound]
@[simp] theorem State.forgetRound_seqR : (s.forgetRound).seqR = freeRound s.freeCount := by simp only [State.forgetRound]
@[simp] theorem State.forgetRound_cmd : (s.forgetRound).cmd = s.cmd := by simp only [State.forgetRound]
@[simp] theorem State.forgetRound_status : (s.forgetRound).status = s.status := by simp only [State.forgetRound]
@[simp] theorem State.forgetRound_errInfo : (s.forgetRound).errInfo = s.errInfo := by simp only [State.forgetRound]
@[simp] theorem State.forgetRound_keyAddr : (s.forgetRound).keyAddr = s.keyAddr := by simp only [State.forgetRound]
@[simp] theorem State.forgetRound_keyLen : (s.forgetRound).keyLen = s.keyLen := by simp only [State.forgetRound]
@[simp] theorem State.forgetRound_ivAddr : (s.forgetRound).ivAddr = s.ivAddr := by simp only [State.forgetRound]
@[simp] theorem State.forgetRound_ivLen : (s.forgetRound).ivLen = s.ivLen := by simp only [State.forgetRound]
@[simp] theorem State.forgetRound_srcAddr : (s.forgetRound).srcAddr = s.srcAddr := by simp only [State.forgetRound]
@[simp] theorem State.forgetRound_srcLen : (s.forgetRound).srcLen = s.srcLen := by simp only [State.forgetRound]
@[simp] theorem State.forgetRound_dstAddr : (s.forgetRound).dstAddr = s.dstAddr := by simp only [State.forgetRound]
@[simp] theorem State.forgetRound_dstLen : (s.forgetRound).dstLen = s.dstLen := by simp only [State.forgetRound]
@[simp] theorem State.forgetRound_mem : (s.forgetRound).mem = s.mem := by simp only [State.forgetRound]
@[simp] theorem State.forgetRound_pending : (s.forgetRound).pending = s.pending := by simp only [State.forgetRound]
@[simp] theorem State.forgetRound_readData : (s.forgetRound).readData = s.readData := by simp only [State.forgetRound]
@[simp] theorem State.forgetRound_accesses : (s.forgetRound).accesses = s.accesses := by simp only [State.forgetRound]
@[simp] theorem State.forgetRound_freeCount : (s.forgetRound).freeCount = s.freeCount + 1 := by simp only [State.forgetRound]
@[simp] theorem State.forgetRound_slot (i : Fin 22) : (s.forgetRound).slot i = s.slot i := by simp only [State.slot, State.forgetRound]

end

section
variable (s : State)

@[simp] theorem State.forgetWork_rk : (s.forgetWork).rk = s.rk := by simp only [State.forgetWork]
@[simp] theorem State.forgetWork_kvar : (s.forgetWork).kvar = s.kvar := by simp only [State.forgetWork]
@[simp] theorem State.forgetWork_st : (s.forgetWork).st = freeBlock s.freeCount := by simp only [State.forgetWork]
@[simp] theorem State.forgetWork_fb : (s.forgetWork).fb = freeBlock (s.freeCount + 16) := by simp only [State.forgetWork]
@[simp] theorem State.forgetWork_lcb : (s.forgetWork).lcb = s.lcb := by simp only [State.forgetWork]
@[simp] theorem State.forgetWork_seqI : (s.forgetWork).seqI = freeIndex s.mem.aw (s.freeCount + 32) := by simp only [State.forgetWork]
@[simp] theorem State.forgetWork_seqR : (s.forgetWork).seqR = freeRound (s.freeCount + 33) := by simp only [State.forgetWork]
@[simp] theorem State.forgetWork_cmd : (s.forgetWork).cmd = s.cmd := by simp only [State.forgetWork]
@[simp] theorem State.forgetWork_status : (s.forgetWork).status = s.status := by simp only [State.forgetWork]
@[simp] theorem State.forgetWork_errInfo : (s.forgetWork).errInfo = s.errInfo := by simp only [State.forgetWork]
@[simp] theorem State.forgetWork_keyAddr : (s.forgetWork).keyAddr = s.keyAddr := by simp only [State.forgetWork]
@[simp] theorem State.forgetWork_keyLen : (s.forgetWork).keyLen = s.keyLen := by simp only [State.forgetWork]
@[simp] theorem State.forgetWork_ivAddr : (s.forgetWork).ivAddr = s.ivAddr := by simp only [State.forgetWork]
@[simp] theorem State.forgetWork_ivLen : (s.forgetWork).ivLen = s.ivLen := by simp only [State.forgetWork]
@[simp] theorem State.forgetWork_srcAddr : (s.forgetWork).srcAddr = s.srcAddr := by simp only [State.forgetWork]
@[simp] theorem State.forgetWork_srcLen : (s.forgetWork).srcLen = s.srcLen := by simp only [State.forgetWork]
@[simp] theorem State.forgetWork_dstAddr : (s.forgetWork).dstAddr = s.dstAddr := by simp only [State.forgetWork]
@[simp] theorem State.forgetWork_dstLen : (s.forgetWork).dstLen = s.dstLen := by simp only [State.forgetWork]
@[simp] theorem State.forgetWork_mem : (s.forgetWork).mem = s.mem := by simp only [State.forgetWork]
@[simp] theorem State.forgetWork_pending : (s.forgetWork).pending = s.pending := by simp only [State.forgetWork]
@[simp] theorem State.forgetWork_readData : (s.forgetWork).readData = s.readData := by simp only [State.forgetWork]
@[simp] theorem State.forgetWork_accesses : (s.forgetWork).accesses = s.accesses := by simp only [State.forgetWork]
@[simp] theorem State.forgetWork_freeCount : (s.forgetWork).freeCount = s.freeCount + 34 := by simp only [State.forgetWork]
@[simp] theorem State.forgetWork_slot (i : Fin 22) : (s.forgetWork).slot i = s.slot i := by simp only [State.slot, State.forgetWork]

end

section
variable (s : State)

@[simp] theorem State.forgetLcb_rk : (s.forgetLcb).rk = s.rk := by simp only [State.forgetLcb]
@[simp] theorem State.forgetLcb_kvar : (s.forgetLcb).kvar = s.kvar := by simp only [State.forgetLcb]
@[simp] theorem State.forgetLcb_st : (s.forgetLcb).st = s.st := by simp only [State.forgetLcb]
@[simp] theorem State.forgetLcb_fb : (s.forgetLcb).fb = s.fb := by simp only [State.forgetLcb]
@[simp] theorem State.forgetLcb_lcb : (s.forgetLcb).lcb = freeBlock s.freeCount := by simp only [State.forgetLcb]
@[simp] theorem State.forgetLcb_seqI : (s.forgetLcb).seqI = s.seqI := by simp only [State.forgetLcb]
@[simp] theorem State.forgetLcb_seqR : (s.forgetLcb).seqR = s.seqR := by simp only [State.forgetLcb]
@[simp] theorem State.forgetLcb_cmd : (s.forgetLcb).cmd = s.cmd := by simp only [State.forgetLcb]
@[simp] theorem State.forgetLcb_status : (s.forgetLcb).status = s.status := by simp only [State.forgetLcb]
@[simp] theorem State.forgetLcb_errInfo : (s.forgetLcb).errInfo = s.errInfo := by simp only [State.forgetLcb]
@[simp] theorem State.forgetLcb_keyAddr : (s.forgetLcb).keyAddr = s.keyAddr := by simp only [State.forgetLcb]
@[simp] theorem State.forgetLcb_keyLen : (s.forgetLcb).keyLen = s.keyLen := by simp only [State.forgetLcb]
@[simp] theorem State.forgetLcb_ivAddr : (s.forgetLcb).ivAddr = s.ivAddr := by simp only [State.forgetLcb]
@[simp] theorem State.forgetLcb_ivLen : (s.forgetLcb).ivLen = s.ivLen := by simp only [State.forgetLcb]
@[simp] theorem State.forgetLcb_srcAddr : (s.forgetLcb).srcAddr = s.srcAddr := by simp only [State.forgetLcb]
@[simp] theorem State.forgetLcb_srcLen : (s.forgetLcb).srcLen = s.srcLen := by simp only [State.forgetLcb]
@[simp] theorem State.forgetLcb_dstAddr : (s.forgetLcb).dstAddr = s.dstAddr := by simp only [State.forgetLcb]
@[simp] theorem State.forgetLcb_dstLen : (s.forgetLcb).dstLen = s.dstLen := by simp only [State.forgetLcb]
@[simp] theorem State.forgetLcb_mem : (s.forgetLcb).mem = s.mem := by simp only [State.forgetLcb]
@[simp] theorem State.forgetLcb_pending : (s.forgetLcb).pending = s.pending := by simp only [State.forgetLcb]
@[simp] theorem State.forgetLcb_readData : (s.forgetLcb).readData = s.readData := by simp only [State.forgetLcb]
@[simp] theorem State.forgetLcb_accesses : (s.forgetLcb).accesses = s.accesses := by simp only [State.forgetLcb]
@[simp] theorem State.forgetLcb_freeCount : (s.forgetLcb).freeCount = s.freeCount + 16 := by simp only [State.forgetLcb]
@[simp] theorem State.forgetLcb_slot (i : Fin 22) : (s.forgetLcb).slot i = s.slot i := by simp only [State.slot, State.forgetLcb]

end

section
variable (s : State) (rk : Vector Block 22)

@[simp] theorem State.storeSchedule_rk : (s.storeSchedule rk).rk = rk := by simp only [State.storeSchedule]
@[simp] theorem State.storeSchedule_kvar : (s.storeSchedule rk).kvar = .aes128 := by simp only [State.storeSchedule]
@[simp] theorem State.storeSchedule_st : (s.storeSchedule rk).st = s.st := by simp only [State.storeSchedule]
@[simp] theorem State.storeSchedule_fb : (s.storeSchedule rk).fb = s.fb := by simp only [State.storeSchedule]
@[simp] theorem State.storeSchedule_lcb : (s.storeSchedule rk).lcb = s.lcb := by simp only [State.storeSchedule]
@[simp] theorem State.storeSchedule_seqI : (s.storeSchedule rk).seqI = s.seqI := by simp only [State.storeSchedule]
@[simp] theorem State.storeSchedule_seqR : (s.storeSchedule rk).seqR = s.seqR := by simp only [State.storeSchedule]
@[simp] theorem State.storeSchedule_cmd : (s.storeSchedule rk).cmd = s.cmd := by simp only [State.storeSchedule]
@[simp] theorem State.storeSchedule_status : (s.storeSchedule rk).status = s.status := by simp only [State.storeSchedule]
@[simp] theorem State.storeSchedule_errInfo : (s.storeSchedule rk).errInfo = s.errInfo := by simp only [State.storeSchedule]
@[simp] theorem State.storeSchedule_keyAddr : (s.storeSchedule rk).keyAddr = s.keyAddr := by simp only [State.storeSchedule]
@[simp] theorem State.storeSchedule_keyLen : (s.storeSchedule rk).keyLen = s.keyLen := by simp only [State.storeSchedule]
@[simp] theorem State.storeSchedule_ivAddr : (s.storeSchedule rk).ivAddr = s.ivAddr := by simp only [State.storeSchedule]
@[simp] theorem State.storeSchedule_ivLen : (s.storeSchedule rk).ivLen = s.ivLen := by simp only [State.storeSchedule]
@[simp] theorem State.storeSchedule_srcAddr : (s.storeSchedule rk).srcAddr = s.srcAddr := by simp only [State.storeSchedule]
@[simp] theorem State.storeSchedule_srcLen : (s.storeSchedule rk).srcLen = s.srcLen := by simp only [State.storeSchedule]
@[simp] theorem State.storeSchedule_dstAddr : (s.storeSchedule rk).dstAddr = s.dstAddr := by simp only [State.storeSchedule]
@[simp] theorem State.storeSchedule_dstLen : (s.storeSchedule rk).dstLen = s.dstLen := by simp only [State.storeSchedule]
@[simp] theorem State.storeSchedule_mem : (s.storeSchedule rk).mem = s.mem := by simp only [State.storeSchedule]
@[simp] theorem State.storeSchedule_pending : (s.storeSchedule rk).pending = s.pending := by simp only [State.storeSchedule]
@[simp] theorem State.storeSchedule_readData : (s.storeSchedule rk).readData = s.readData := by simp only [State.storeSchedule]
@[simp] theorem State.storeSchedule_accesses : (s.storeSchedule rk).accesses = s.accesses := by simp only [State.storeSchedule]
@[simp] theorem State.storeSchedule_freeCount : (s.storeSchedule rk).freeCount = s.freeCount := by simp only [State.storeSchedule]

end

section
variable (s : State)

@[simp] theorem State.dropKey_rk : (s.dropKey).rk = s.rk := by simp only [State.dropKey]
@[simp] theorem State.dropKey_kvar : (s.dropKey).kvar = .none := by simp only [State.dropKey]
@[simp] theorem State.dropKey_st : (s.dropKey).st = s.st := by simp only [State.dropKey]
@[simp] theorem State.dropKey_fb : (s.dropKey).fb = s.fb := by simp only [State.dropKey]
@[simp] theorem State.dropKey_lcb : (s.dropKey).lcb = s.lcb := by simp only [State.dropKey]
@[simp] theorem State.dropKey_seqI : (s.dropKey).seqI = s.seqI := by simp only [State.dropKey]
@[simp] theorem State.dropKey_seqR : (s.dropKey).seqR = s.seqR := by simp only [State.dropKey]
@[simp] theorem State.dropKey_cmd : (s.dropKey).cmd = s.cmd := by simp only [State.dropKey]
@[simp] theorem State.dropKey_status : (s.dropKey).status = s.status := by simp only [State.dropKey]
@[simp] theorem State.dropKey_errInfo : (s.dropKey).errInfo = s.errInfo := by simp only [State.dropKey]
@[simp] theorem State.dropKey_keyAddr : (s.dropKey).keyAddr = s.keyAddr := by simp only [State.dropKey]
@[simp] theorem State.dropKey_keyLen : (s.dropKey).keyLen = s.keyLen := by simp only [State.dropKey]
@[simp] theorem State.dropKey_ivAddr : (s.dropKey).ivAddr = s.ivAddr := by simp only [State.dropKey]
@[simp] theorem State.dropKey_ivLen : (s.dropKey).ivLen = s.ivLen := by simp only [State.dropKey]
@[simp] theorem State.dropKey_srcAddr : (s.dropKey).srcAddr = s.srcAddr := by simp only [State.dropKey]
@[simp] theorem State.dropKey_srcLen : (s.dropKey).srcLen = s.srcLen := by simp only [State.dropKey]
@[simp] theorem State.dropKey_dstAddr : (s.dropKey).dstAddr = s.dstAddr := by simp only [State.dropKey]
@[simp] theorem State.dropKey_dstLen : (s.dropKey).dstLen = s.dstLen := by simp only [State.dropKey]
@[simp] theorem State.dropKey_mem : (s.dropKey).mem = s.mem := by simp only [State.dropKey]
@[simp] theorem State.dropKey_pending : (s.dropKey).pending = s.pending := by simp only [State.dropKey]
@[simp] theorem State.dropKey_readData : (s.dropKey).readData = s.readData := by simp only [State.dropKey]
@[simp] theorem State.dropKey_accesses : (s.dropKey).accesses = s.accesses := by simp only [State.dropKey]
@[simp] theorem State.dropKey_freeCount : (s.dropKey).freeCount = s.freeCount := by simp only [State.dropKey]
@[simp] theorem State.dropKey_slot (i : Fin 22) : (s.dropKey).slot i = s.slot i := by simp only [State.slot, State.dropKey]

end

section
variable (s : State) (o : CipherOperands)

@[simp] theorem State.loadIv_rk : (s.loadIv o).rk = s.rk := rfl
@[simp] theorem State.loadIv_kvar : (s.loadIv o).kvar = s.kvar := rfl
@[simp] theorem State.loadIv_st : (s.loadIv o).st = s.st := rfl
@[simp] theorem State.loadIv_fb : (s.loadIv o).fb = s.mem.readBlock o.ivAddr := rfl
@[simp] theorem State.loadIv_lcb : (s.loadIv o).lcb = s.lcb := rfl
@[simp] theorem State.loadIv_seqI : (s.loadIv o).seqI = 0 := rfl
@[simp] theorem State.loadIv_seqR : (s.loadIv o).seqR = s.seqR := rfl
@[simp] theorem State.loadIv_cmd : (s.loadIv o).cmd = s.cmd := rfl
@[simp] theorem State.loadIv_status : (s.loadIv o).status = s.status := rfl
@[simp] theorem State.loadIv_errInfo : (s.loadIv o).errInfo = s.errInfo := rfl
@[simp] theorem State.loadIv_keyAddr : (s.loadIv o).keyAddr = s.keyAddr := rfl
@[simp] theorem State.loadIv_keyLen : (s.loadIv o).keyLen = s.keyLen := rfl
@[simp] theorem State.loadIv_ivAddr : (s.loadIv o).ivAddr = s.ivAddr := rfl
@[simp] theorem State.loadIv_ivLen : (s.loadIv o).ivLen = s.ivLen := rfl
@[simp] theorem State.loadIv_srcAddr : (s.loadIv o).srcAddr = s.srcAddr := rfl
@[simp] theorem State.loadIv_srcLen : (s.loadIv o).srcLen = s.srcLen := rfl
@[simp] theorem State.loadIv_dstAddr : (s.loadIv o).dstAddr = s.dstAddr := rfl
@[simp] theorem State.loadIv_dstLen : (s.loadIv o).dstLen = s.dstLen := rfl
@[simp] theorem State.loadIv_mem : (s.loadIv o).mem = s.mem := rfl
@[simp] theorem State.loadIv_pending : (s.loadIv o).pending = s.pending := rfl
@[simp] theorem State.loadIv_readData : (s.loadIv o).readData = s.readData := rfl
@[simp] theorem State.loadIv_accesses : (s.loadIv o).accesses = s.accesses ++ [.read o.ivAddr] := rfl
@[simp] theorem State.loadIv_freeCount : (s.loadIv o).freeCount = s.freeCount := rfl
@[simp] theorem State.loadIv_slot (i : Fin 22) : (s.loadIv o).slot i = s.slot i := rfl

end

section
variable (s : State) (r : Fin 22)

@[simp] theorem State.encryptRound_rk : (s.encryptRound r).rk = s.rk := by simp only [State.encryptRound]
@[simp] theorem State.encryptRound_kvar : (s.encryptRound r).kvar = s.kvar := by simp only [State.encryptRound]
@[simp] theorem State.encryptRound_st : (s.encryptRound r).st = aesRound s.st (s.slot r) := by simp only [State.encryptRound]
@[simp] theorem State.encryptRound_fb : (s.encryptRound r).fb = s.fb := by simp only [State.encryptRound]
@[simp] theorem State.encryptRound_lcb : (s.encryptRound r).lcb = s.lcb := by simp only [State.encryptRound]
@[simp] theorem State.encryptRound_seqI : (s.encryptRound r).seqI = s.seqI := by simp only [State.encryptRound]
@[simp] theorem State.encryptRound_seqR : (s.encryptRound r).seqR = BitVec.ofNat 4 r.val := by simp only [State.encryptRound]
@[simp] theorem State.encryptRound_cmd : (s.encryptRound r).cmd = s.cmd := by simp only [State.encryptRound]
@[simp] theorem State.encryptRound_status : (s.encryptRound r).status = s.status := by simp only [State.encryptRound]
@[simp] theorem State.encryptRound_errInfo : (s.encryptRound r).errInfo = s.errInfo := by simp only [State.encryptRound]
@[simp] theorem State.encryptRound_keyAddr : (s.encryptRound r).keyAddr = s.keyAddr := by simp only [State.encryptRound]
@[simp] theorem State.encryptRound_keyLen : (s.encryptRound r).keyLen = s.keyLen := by simp only [State.encryptRound]
@[simp] theorem State.encryptRound_ivAddr : (s.encryptRound r).ivAddr = s.ivAddr := by simp only [State.encryptRound]
@[simp] theorem State.encryptRound_ivLen : (s.encryptRound r).ivLen = s.ivLen := by simp only [State.encryptRound]
@[simp] theorem State.encryptRound_srcAddr : (s.encryptRound r).srcAddr = s.srcAddr := by simp only [State.encryptRound]
@[simp] theorem State.encryptRound_srcLen : (s.encryptRound r).srcLen = s.srcLen := by simp only [State.encryptRound]
@[simp] theorem State.encryptRound_dstAddr : (s.encryptRound r).dstAddr = s.dstAddr := by simp only [State.encryptRound]
@[simp] theorem State.encryptRound_dstLen : (s.encryptRound r).dstLen = s.dstLen := by simp only [State.encryptRound]
@[simp] theorem State.encryptRound_mem : (s.encryptRound r).mem = s.mem := by simp only [State.encryptRound]
@[simp] theorem State.encryptRound_pending : (s.encryptRound r).pending = s.pending := by simp only [State.encryptRound]
@[simp] theorem State.encryptRound_readData : (s.encryptRound r).readData = s.readData := by simp only [State.encryptRound]
@[simp] theorem State.encryptRound_accesses : (s.encryptRound r).accesses = s.accesses := by simp only [State.encryptRound]
@[simp] theorem State.encryptRound_freeCount : (s.encryptRound r).freeCount = s.freeCount := by simp only [State.encryptRound]
@[simp] theorem State.encryptRound_slot (i : Fin 22) : (s.encryptRound r).slot i = s.slot i := by simp only [State.slot, State.encryptRound]

end

section
variable (s : State) (r : Fin 22)

@[simp] theorem State.decryptRound_rk : (s.decryptRound r).rk = s.rk := by simp only [State.decryptRound]
@[simp] theorem State.decryptRound_kvar : (s.decryptRound r).kvar = s.kvar := by simp only [State.decryptRound]
@[simp] theorem State.decryptRound_st : (s.decryptRound r).st = aesInvRound s.st (s.slot (11 + r)) := by simp only [State.decryptRound]
@[simp] theorem State.decryptRound_fb : (s.decryptRound r).fb = s.fb := by simp only [State.decryptRound]
@[simp] theorem State.decryptRound_lcb : (s.decryptRound r).lcb = s.lcb := by simp only [State.decryptRound]
@[simp] theorem State.decryptRound_seqI : (s.decryptRound r).seqI = s.seqI := by simp only [State.decryptRound]
@[simp] theorem State.decryptRound_seqR : (s.decryptRound r).seqR = BitVec.ofNat 4 r.val := by simp only [State.decryptRound]
@[simp] theorem State.decryptRound_cmd : (s.decryptRound r).cmd = s.cmd := by simp only [State.decryptRound]
@[simp] theorem State.decryptRound_status : (s.decryptRound r).status = s.status := by simp only [State.decryptRound]
@[simp] theorem State.decryptRound_errInfo : (s.decryptRound r).errInfo = s.errInfo := by simp only [State.decryptRound]
@[simp] theorem State.decryptRound_keyAddr : (s.decryptRound r).keyAddr = s.keyAddr := by simp only [State.decryptRound]
@[simp] theorem State.decryptRound_keyLen : (s.decryptRound r).keyLen = s.keyLen := by simp only [State.decryptRound]
@[simp] theorem State.decryptRound_ivAddr : (s.decryptRound r).ivAddr = s.ivAddr := by simp only [State.decryptRound]
@[simp] theorem State.decryptRound_ivLen : (s.decryptRound r).ivLen = s.ivLen := by simp only [State.decryptRound]
@[simp] theorem State.decryptRound_srcAddr : (s.decryptRound r).srcAddr = s.srcAddr := by simp only [State.decryptRound]
@[simp] theorem State.decryptRound_srcLen : (s.decryptRound r).srcLen = s.srcLen := by simp only [State.decryptRound]
@[simp] theorem State.decryptRound_dstAddr : (s.decryptRound r).dstAddr = s.dstAddr := by simp only [State.decryptRound]
@[simp] theorem State.decryptRound_dstLen : (s.decryptRound r).dstLen = s.dstLen := by simp only [State.decryptRound]
@[simp] theorem State.decryptRound_mem : (s.decryptRound r).mem = s.mem := by simp only [State.decryptRound]
@[simp] theorem State.decryptRound_pending : (s.decryptRound r).pending = s.pending := by simp only [State.decryptRound]
@[simp] theorem State.decryptRound_readData : (s.decryptRound r).readData = s.readData := by simp only [State.decryptRound]
@[simp] theorem State.decryptRound_accesses : (s.decryptRound r).accesses = s.accesses := by simp only [State.decryptRound]
@[simp] theorem State.decryptRound_freeCount : (s.decryptRound r).freeCount = s.freeCount := by simp only [State.decryptRound]
@[simp] theorem State.decryptRound_slot (i : Fin 22) : (s.decryptRound r).slot i = s.slot i := by simp only [State.slot, State.decryptRound]

end

section
variable (s : State)

@[simp] theorem State.resetEvent_rk : s.resetEvent.rk = freeStore s.freeCount := by simp only [State.resetEvent]
@[simp] theorem State.resetEvent_kvar : s.resetEvent.kvar = .none := rfl
@[simp] theorem State.resetEvent_st : s.resetEvent.st = freeBlock (s.freeCount + 352) := by simp only [State.resetEvent]
@[simp] theorem State.resetEvent_fb : s.resetEvent.fb = freeBlock (s.freeCount + 368) := by simp only [State.resetEvent]
@[simp] theorem State.resetEvent_lcb : s.resetEvent.lcb = freeBlock (s.freeCount + 384) := by simp only [State.resetEvent]
@[simp] theorem State.resetEvent_seqI : s.resetEvent.seqI = freeIndex s.mem.aw (s.freeCount + 400) := by simp only [State.resetEvent]
@[simp] theorem State.resetEvent_seqR : s.resetEvent.seqR = freeRound (s.freeCount + 401) := by simp only [State.resetEvent]
@[simp] theorem State.resetEvent_cmd : s.resetEvent.cmd = 0 := rfl
@[simp] theorem State.resetEvent_status : s.resetEvent.status = 0 := rfl
@[simp] theorem State.resetEvent_errInfo : s.resetEvent.errInfo = 0 := rfl
@[simp] theorem State.resetEvent_keyAddr : s.resetEvent.keyAddr = 0 := rfl
@[simp] theorem State.resetEvent_keyLen : s.resetEvent.keyLen = 0 := rfl
@[simp] theorem State.resetEvent_ivAddr : s.resetEvent.ivAddr = 0 := rfl
@[simp] theorem State.resetEvent_ivLen : s.resetEvent.ivLen = 0 := rfl
@[simp] theorem State.resetEvent_srcAddr : s.resetEvent.srcAddr = 0 := rfl
@[simp] theorem State.resetEvent_srcLen : s.resetEvent.srcLen = 0 := rfl
@[simp] theorem State.resetEvent_dstAddr : s.resetEvent.dstAddr = 0 := rfl
@[simp] theorem State.resetEvent_dstLen : s.resetEvent.dstLen = 0 := rfl
@[simp] theorem State.resetEvent_mem : s.resetEvent.mem = s.mem := by simp only [State.resetEvent]
@[simp] theorem State.resetEvent_pending : s.resetEvent.pending = s.pending := by simp only [State.resetEvent]
@[simp] theorem State.resetEvent_readData : s.resetEvent.readData = s.readData := by simp only [State.resetEvent]
@[simp] theorem State.resetEvent_accesses : s.resetEvent.accesses = s.accesses := by simp only [State.resetEvent]
@[simp] theorem State.resetEvent_freeCount : s.resetEvent.freeCount = s.freeCount + 402 := by simp only [State.resetEvent]

end

@[simp] theorem State.memRead_fst (s : State) (a : Nat) : (s.memRead a).1 = s.mem.readBlock a := rfl

@[simp] theorem statusWord_failed : statusWord true true = 3 := rfl

@[simp] theorem statusWord_completed : statusWord true false = 1 := rfl

@[simp] theorem State.raise_err (s : State) (e : CommandError) : (s.raise e).err = true := by
  simp only [State.err, State.raise_status, statusWord_failed]; decide

@[simp] theorem State.raise_done (s : State) (e : CommandError) : (s.raise e).done = true := by
  simp only [State.done, State.raise_status, statusWord_failed]; decide

@[simp] theorem State.complete_err (s : State) : s.complete.err = false := by
  simp only [State.err, State.complete_status, statusWord_completed]; decide

@[simp] theorem State.complete_done (s : State) : s.complete.done = true := by
  simp only [State.done, State.complete_status, statusWord_completed]; decide

@[simp] theorem State.failed_err (s : State) (e : Word) : (s.failed e).err = true := by
  simp only [State.err, State.failed]; decide

@[simp] theorem State.failed_done (s : State) (e : Word) : (s.failed e).done = true := by
  simp only [State.done, State.failed]; decide

/-- The eight operand registers and the block index within their widths, one by one (R26, R29). -/
theorem State.fitsAw_iff (s : State) : s.FitsAw ↔
    s.keyAddr < 2 ^ s.mem.aw ∧ s.keyLen < 2 ^ s.mem.aw ∧ s.ivAddr < 2 ^ s.mem.aw ∧ s.ivLen < 2 ^ s.mem.aw ∧
    s.srcAddr < 2 ^ s.mem.aw ∧ s.srcLen < 2 ^ s.mem.aw ∧ s.dstAddr < 2 ^ s.mem.aw ∧ s.dstLen < 2 ^ s.mem.aw ∧
    s.seqI < 2 ^ (s.mem.aw - 4) := by
  simp [State.FitsAw, Reg.operands, State.regValue, and_assoc]

/-- A drawn block index fits its width (R26). -/
theorem freeIndex_lt (aw n : Nat) : freeIndex aw n < 2 ^ (aw - 4) := Nat.mod_lt _ (Nat.two_pow_pos _)

/-- A value written to an operand register fits its width (R29). -/
theorem State.operandValue_lt (s : State) (v : Word) : s.operandValue v < 2 ^ s.mem.aw := Nat.mod_lt _ (Nat.two_pow_pos _)

/-- `raise` in one record (R166). -/
theorem State.raise_eq (s : State) (e : CommandError) : s.raise e = s.failed e.errInfo := rfl

end Sys2Proof.Machine
end

