-- ==== Sys2Proof/Laws/Memory.lean ====
section
/-! SUPPORT. The laws of MEM: reading after writing, canonical form kept by every memory operation, blocks read and written
(20_memory.md R50 to R53). -/

namespace Sys2Proof.Machine

/-! ### Cells -/

/-- A cell of canonical form is listed above everything read as unlisted. -/
theorem readCells_of_all_lt {cells : List Host.Cell} {a : Nat} (h : cells.all (fun c => decide (a < c.1)) = true) :
    readCells cells a = Memory.unlisted := by
  induction cells with
  | nil => rfl
  | cons c rest ih =>
    obtain ⟨b, v⟩ := c
    simp only [List.all_cons, Bool.and_eq_true, decide_eq_true_eq] at h
    simp only [readCells, if_neg (Nat.ne_of_lt h.1)]
    exact ih h.2

theorem all_lt_trans {cells : List Host.Cell} {a b : Nat} (hab : a ≤ b)
    (h : cells.all (fun c => decide (b < c.1)) = true) : cells.all (fun c => decide (a < c.1)) = true := by
  simp only [List.all_eq_true, decide_eq_true_eq] at *
  exact fun c hc => Nat.lt_of_le_of_lt hab (h c hc)

/-- A write leaves every other address alone. -/
theorem readCells_writeCells_ne (cells : List Host.Cell) {a x : Nat} (v : Byte) (hx : x ≠ a) :
    readCells (writeCells cells a v) x = readCells cells x := by
  induction cells with
  | nil =>
    simp only [writeCells]
    split <;> simp [readCells, hx]
  | cons c rest ih =>
    obtain ⟨b, w⟩ := c
    simp only [writeCells]
    split
    · simp only [readCells, ih]
    · by_cases hb : b = a
      · subst hb
        simp only [if_true]
        split <;> simp [readCells, hx]
      · simp only [if_neg hb]
        split
        · rfl
        · simp [readCells, hx]

/-- A read of the address just written gives the byte written, in canonical form. -/
theorem readCells_writeCells_eq {cells : List Host.Cell} (h : cellsWf cells = true) (a : Nat) (v : Byte) :
    readCells (writeCells cells a v) a = v := by
  induction cells with
  | nil =>
    simp only [writeCells]
    split <;> simp_all [readCells]
  | cons c rest ih =>
    obtain ⟨b, w⟩ := c
    simp only [cellsWf, Bool.and_eq_true] at h
    obtain ⟨⟨-, hlt⟩, hrest⟩ := h
    simp only [writeCells]
    split
    · next hba => simp only [readCells, if_neg (Nat.ne_of_gt hba), ih hrest]
    · next hba =>
      split
      · next hv =>
        subst hv
        by_cases hb : b = a
        · subst hb
          simp only [if_true]
          exact readCells_of_all_lt hlt
        · simp only [if_neg hb, readCells, if_neg (fun h : a = b => hb h.symm)]
          exact readCells_of_all_lt (all_lt_trans (Nat.le_of_not_lt hba) hlt)
      · simp [readCells]

theorem all_lt_writeCells {cells : List Host.Cell} {a b : Nat} {v : Byte} (hba : b < a)
    (h : cells.all (fun c => decide (b < c.1)) = true) :
    (writeCells cells a v).all (fun c => decide (b < c.1)) = true := by
  induction cells with
  | nil =>
    simp only [writeCells]
    split <;> simp [hba]
  | cons c rest ih =>
    obtain ⟨d, w⟩ := c
    simp only [List.all_cons, Bool.and_eq_true, decide_eq_true_eq] at h
    simp only [writeCells]
    split
    · simp [h.1, ih h.2]
    · by_cases hd : d = a
      · simp only [hd, if_true]
        split <;> simp [hba, h.2]
      · simp only [if_neg hd]
        split <;> simp [hba, h.1, h.2]

/-- A write keeps the canonical form. -/
theorem cellsWf_writeCells {cells : List Host.Cell} (h : cellsWf cells = true) (a : Nat) (v : Byte) :
    cellsWf (writeCells cells a v) = true := by
  induction cells with
  | nil =>
    simp only [writeCells]
    split
    · rfl
    · next hv => simp [cellsWf, hv]
  | cons c rest ih =>
    obtain ⟨b, w⟩ := c
    have h' := h
    simp only [cellsWf, Bool.and_eq_true, decide_eq_true_eq] at h'
    obtain ⟨⟨hw, hlt⟩, hrest⟩ := h'
    simp only [writeCells]
    split
    · next hba => simp [cellsWf, hw, all_lt_writeCells hba hlt, ih hrest]
    · next hba =>
      by_cases hb : b = a
      · subst hb
        simp only [if_true]
        split
        · exact hrest
        · next hv => simp [cellsWf, hv, hlt, hrest]
      · have hab : a < b := by omega
        simp only [if_neg hb]
        split
        · exact h
        · next hv =>
          simp [cellsWf, hv, hw, hlt, hrest, hab, all_lt_trans (Nat.le_of_lt hab) hlt]

/-- Canonical cells that read the same are the same list. -/
theorem cells_ext {c₁ c₂ : List Host.Cell} (h₁ : cellsWf c₁ = true) (h₂ : cellsWf c₂ = true)
    (h : ∀ a, readCells c₁ a = readCells c₂ a) : c₁ = c₂ := by
  induction c₁ generalizing c₂ with
  | nil =>
    cases c₂ with
    | nil => rfl
    | cons c rest =>
      obtain ⟨b, w⟩ := c
      simp only [cellsWf, Bool.and_eq_true, decide_eq_true_eq] at h₂
      have := h b
      simp only [readCells, if_true] at this
      exact absurd this.symm h₂.1.1
  | cons c rest ih =>
    obtain ⟨b, w⟩ := c
    simp only [cellsWf, Bool.and_eq_true, decide_eq_true_eq] at h₁
    obtain ⟨⟨hw, hlt⟩, hrest⟩ := h₁
    cases c₂ with
    | nil =>
      have := h b
      simp only [readCells, if_true] at this
      exact absurd this hw
    | cons c' rest' =>
      obtain ⟨b', w'⟩ := c'
      simp only [cellsWf, Bool.and_eq_true, decide_eq_true_eq] at h₂
      obtain ⟨⟨hw', hlt'⟩, hrest'⟩ := h₂
      have hbb : b = b' := by
        rcases Nat.lt_trichotomy b b' with hb | hb | hb
        · have := h b
          simp only [readCells, if_true, if_neg (Nat.ne_of_lt hb),
            readCells_of_all_lt (all_lt_trans (Nat.le_of_lt hb) hlt')] at this
          exact absurd this hw
        · exact hb
        · have := h b'
          simp only [readCells, if_true, if_neg (Nat.ne_of_lt hb),
            readCells_of_all_lt (all_lt_trans (Nat.le_of_lt hb) hlt)] at this
          exact absurd this.symm hw'
      subst hbb
      have hww : w = w' := by simpa [readCells] using h b
      subst hww
      have hrr : rest = rest' := by
        apply ih hrest hrest'
        intro a
        by_cases ha : a = b
        · subst ha
          rw [readCells_of_all_lt hlt, readCells_of_all_lt hlt']
        · simpa [readCells, ha] using h a
      rw [hrr]

/-! ### Bytes -/

@[simp] theorem Memory.write_map (m : Memory) (a : Nat) (v : Byte) : (m.write a v).map = m.map := rfl

@[simp] theorem Memory.write_aw (m : Memory) (a : Nat) (v : Byte) : (m.write a v).aw = m.aw := rfl

/-- A write leaves every other address alone (R53: "No other byte of `MEM` changes"). -/
theorem Memory.read_write_ne (m : Memory) {a x : Nat} (v : Byte) (hx : x ≠ a) : (m.write a v).read x = m.read x :=
  readCells_writeCells_ne m.cells v hx

/-- A read after a write to the same address gives the byte written. -/
theorem Memory.read_write_eq {m : Memory} (h : m.wf = true) (a : Nat) (v : Byte) : (m.write a v).read a = v :=
  readCells_writeCells_eq h a v

/-- A byte write keeps the canonical form. -/
theorem Memory.wf_write {m : Memory} (h : m.wf = true) (a : Nat) (v : Byte) : (m.write a v).wf = true :=
  cellsWf_writeCells h a v

/-- The memory of the reset state is in canonical form. -/
theorem State.reset_mem_wf : State.reset.mem.wf = true := rfl

/-- Memories in canonical form with one address width, one map and equal bytes are equal data. -/
theorem Memory.ext_read {m₁ m₂ : Memory} (h₁ : m₁.wf = true) (h₂ : m₂.wf = true) (ha : m₁.aw = m₂.aw)
    (hm : m₁.map = m₂.map) (h : ∀ a, m₁.read a = m₂.read a) : m₁ = m₂ := by
  cases m₁
  cases m₂
  simp only [Memory.mk.injEq]
  exact ⟨ha, hm, cells_ext h₁ h₂ h⟩

/-! ### A run of byte writes -/

/-- Any run of byte writes keeps the map, the address width and the canonical form, and touches only its own addresses. -/
theorem Memory.foldl_write_map (m : Memory) (l : List Nat) (f : Nat → Nat) (g : Nat → Byte) :
    (l.foldl (fun m j => m.write (f j) (g j)) m).map = m.map := by
  induction l generalizing m with
  | nil => rfl
  | cons j l ih => simp [ih]

theorem Memory.foldl_write_aw (m : Memory) (l : List Nat) (f : Nat → Nat) (g : Nat → Byte) :
    (l.foldl (fun m j => m.write (f j) (g j)) m).aw = m.aw := by
  induction l generalizing m with
  | nil => rfl
  | cons j l ih => simp [ih]

theorem Memory.foldl_write_wf {m : Memory} (h : m.wf = true) (l : List Nat) (f : Nat → Nat) (g : Nat → Byte) :
    (l.foldl (fun m j => m.write (f j) (g j)) m).wf = true := by
  induction l generalizing m with
  | nil => exact h
  | cons j l ih => exact ih (Memory.wf_write h _ _)

theorem Memory.foldl_write_read_ne (m : Memory) (l : List Nat) (f : Nat → Nat) (g : Nat → Byte) {x : Nat}
    (hx : ∀ j ∈ l, x ≠ f j) : (l.foldl (fun m j => m.write (f j) (g j)) m).read x = m.read x := by
  induction l generalizing m with
  | nil => rfl
  | cons j l ih =>
    simp only [List.foldl_cons]
    rw [ih _ (fun k hk => hx k (List.mem_cons_of_mem _ hk)), Memory.read_write_ne _ _ (hx j (List.mem_cons_self ..))]

theorem Memory.foldl_write_read_eq {m : Memory} (h : m.wf = true) (a : Nat) (g : Nat → Byte) {n j : Nat} (hj : j < n) :
    ((List.range n).foldl (fun m j => m.write (a + j) (g j)) m).read (a + j) = g j := by
  induction n with
  | zero => omega
  | succ n ih =>
    simp only [List.range_succ, List.foldl_append, List.foldl_cons, List.foldl_nil]
    by_cases hjn : j = n
    · subst hjn
      exact Memory.read_write_eq (Memory.foldl_write_wf h _ _ _) _ _
    · rw [Memory.read_write_ne _ _ (by omega), ih (by omega)]

/-! ### Blocks -/

@[simp] theorem Memory.writeBlock_map (m : Memory) (a : Nat) (v : Block) : (m.writeBlock a v).map = m.map :=
  Memory.foldl_write_map ..

@[simp] theorem Memory.writeBlock_aw (m : Memory) (a : Nat) (v : Block) : (m.writeBlock a v).aw = m.aw :=
  Memory.foldl_write_aw ..

@[simp] theorem Memory.writeBlock_kindAt (m : Memory) (a : Nat) (v : Block) (x : Nat) :
    (m.writeBlock a v).kindAt x = m.kindAt x := by
  simp [Memory.kindAt]

/-- A block write keeps the canonical form. -/
theorem Memory.wf_writeBlock {m : Memory} (h : m.wf = true) (a : Nat) (v : Block) : (m.writeBlock a v).wf = true :=
  Memory.foldl_write_wf h ..

/-- A block write touches only its sixteen bytes. -/
theorem Memory.read_writeBlock_of_outside (m : Memory) {a x : Nat} (v : Block) (hx : x < a ∨ a + 16 ≤ x) :
    (m.writeBlock a v).read x = m.read x := by
  apply Memory.foldl_write_read_ne
  intro j hj
  have := List.mem_range.1 hj
  omega

/-- Byte `j` of a written block stands at `a + j`. -/
theorem Memory.read_writeBlock_of_inside {m : Memory} (h : m.wf = true) (a : Nat) (v : Block) {j : Nat} (hj : j < 16) :
    (m.writeBlock a v).read (a + j) = v.byte j :=
  Memory.foldl_write_read_eq h a v.byte hj

/-- A block is its sixteen bytes. -/
theorem Block.ofFn_byte (v : Block) : Block.ofFn v.byte = v := rfl

theorem Block.ofFn_congr {f g : Nat → Byte} (h : ∀ j < 16, f j = g j) : Block.ofFn f = Block.ofFn g := by
  simp only [Block.ofFn, h 0 (by omega), h 1 (by omega), h 2 (by omega), h 3 (by omega), h 4 (by omega), h 5 (by omega),
    h 6 (by omega), h 7 (by omega), h 8 (by omega), h 9 (by omega), h 10 (by omega), h 11 (by omega), h 12 (by omega),
    h 13 (by omega), h 14 (by omega), h 15 (by omega)]

/-- Byte `j` of a block given by its bytes (R8). -/
theorem Block.byte_ofFn (f : Nat → Byte) {j : Nat} (hj : j < 16) : (Block.ofFn f).byte j = f j := by
  interval_cases j <;> rfl

/-- Byte `j` of a block read from memory (R52). -/
theorem Memory.byte_readBlock (m : Memory) (a : Nat) {j : Nat} (hj : j < 16) : (m.readBlock a).byte j = m.read (a + j) :=
  Block.byte_ofFn _ hj

/-- A block read gives the block written there. -/
theorem Memory.readBlock_writeBlock_eq {m : Memory} (h : m.wf = true) (a : Nat) (v : Block) :
    (m.writeBlock a v).readBlock a = v :=
  (Block.ofFn_congr fun _ hj => Memory.read_writeBlock_of_inside h a v hj).trans (Block.ofFn_byte v)

/-- Two memories that agree on sixteen bytes give the same block. -/
theorem Memory.readBlock_congr {m₁ m₂ : Memory} {a : Nat} (h : ∀ j < 16, m₁.read (a + j) = m₂.read (a + j)) :
    m₁.readBlock a = m₂.readBlock a :=
  Block.ofFn_congr h

/-- A block read away from a block write is not affected. -/
theorem Memory.readBlock_writeBlock_of_outside (m : Memory) {a x : Nat} (v : Block) (hx : x + 16 ≤ a ∨ a + 16 ≤ x) :
    (m.writeBlock a v).readBlock x = m.readBlock x :=
  Memory.readBlock_congr fun _ _ => Memory.read_writeBlock_of_outside m v (by omega)

/-! ### A write cut by reset -/

@[simp] theorem Memory.cut_map (old new : Memory) (a n free : Nat) : (Memory.cut old new a n free).map = old.map :=
  Memory.foldl_write_map ..

@[simp] theorem Memory.cut_aw (old new : Memory) (a n free : Nat) : (Memory.cut old new a n free).aw = old.aw :=
  Memory.foldl_write_aw ..

theorem Memory.wf_cut {old : Memory} (h : old.wf = true) (new : Memory) (a n free : Nat) :
    (Memory.cut old new a n free).wf = true :=
  Memory.foldl_write_wf h ..

theorem Memory.read_cut_of_outside (old new : Memory) {a n free x : Nat} (hx : x < a ∨ a + n ≤ x) :
    (Memory.cut old new a n free).read x = old.read x := by
  apply Memory.foldl_write_read_ne
  intro j hj
  have := List.mem_range.1 hj
  omega

/-- Inside the cut range each byte is its old or its new value (R192). -/
theorem Memory.read_cut_of_inside {old : Memory} (h : old.wf = true) (new : Memory) (a : Nat) {n j : Nat} (free : Nat)
    (hj : j < n) :
    (Memory.cut old new a n free).read (a + j) = old.read (a + j) ∨
      (Memory.cut old new a n free).read (a + j) = new.read (a + j) := by
  have := Memory.foldl_write_read_eq h a
    (fun j => if (Config.freeByte (free + j)).getLsbD 0 then new.read (a + j) else old.read (a + j)) hj
  unfold Memory.cut
  rw [this]
  split
  · exact .inr rfl
  · exact .inl rfl

/-! ### Ranges -/

/-- Every byte present and ordinary, as one check (R51, R57). -/
theorem Memory.rangeOrdinary_iff {m : Memory} {a n : Nat} :
    m.rangeOrdinary a n = true ↔ ∀ j < n, m.kindAt (a + j) = some .ordinary := by
  simp [Memory.rangeOrdinary]

theorem Memory.rangePresent_of_ordinary {m : Memory} {a n : Nat} (h : ∀ j < n, m.kindAt (a + j) = some .ordinary) :
    m.rangePresent a n = true := by
  simp only [Memory.rangePresent, List.all_eq_true, List.mem_range]
  intro j hj
  simp [h j hj]

/-- The launch check on one range accepts exactly the ranges of `RangeOk` (R51). -/
theorem Memory.rangeRefusal_eq_none {m : Memory} {a n : Nat} : m.rangeRefusal (a, n) = none ↔ m.RangeOk a n := by
  unfold Memory.rangeRefusal Memory.RangeOk
  split
  · exact ⟨fun h => (nomatch h), fun h => absurd h.1 (by omega)⟩
  · next hw =>
    split
    · next hp =>
      refine ⟨fun h => (nomatch h), fun h => ?_⟩
      simp [Memory.rangePresent_of_ordinary h.2] at hp
    · split
      · next ho =>
        refine ⟨fun h => (nomatch h), fun h => ?_⟩
        simp [Memory.rangeOrdinary_iff.2 h.2] at ho
      · next ho => exact ⟨fun _ => ⟨by omega, Memory.rangeOrdinary_iff.1 (by simpa using ho)⟩, fun _ => rfl⟩

end Sys2Proof.Machine
end

