-- ==== Sys2Proof/Laws/Commands.lean ====
section
/-! SUPPORT. What a command can do, said once: the checks and the launch precondition as conditions on the state, the outcome
of each command's meaning, and what one turn of the block loop does (60_exceptions.md R164, 41_key_schedule.md R125,
42_cbc_encrypt.md R143, 43_cbc_decrypt.md R153). -/

namespace Sys2Proof.Machine

/-! ### Checks -/

theorem KeyOperands.check_none_iff (o : KeyOperands) : o.check = none ↔ o.len = 16 := by
  unfold KeyOperands.check
  split <;> simp_all

theorem KeyOperands.check_eq_none {s : State} : s.keyOperands.check = none ↔ s.keyLen = 16 :=
  KeyOperands.check_none_iff s.keyOperands

theorem CipherOperands.check_none_iff (o : CipherOperands) (k : KVar) :
    o.check k = none ↔
      (o.srcLen ≠ 0 ∧ o.srcLen % 16 = 0 ∧ o.dstLen % 16 = 0 ∧ o.ivLen = 16 ∧
        o.srcLen ≤ o.dstLen) ∧ k = .aes128 := by
  unfold CipherOperands.check
  repeat' split
  all_goals simp_all

theorem CipherOperands.check_eq_none {s : State} :
    s.cipherOperands.check s.kvar = none ↔ s.BuffersOk ∧ s.kvar = .aes128 :=
  CipherOperands.check_none_iff s.cipherOperands s.kvar

/-- A failed check reports one of the eight values of R163. -/
theorem CipherOperands.errInfo_of_check {o : CipherOperands} {k : KVar} {e : CommandError} (h : o.check k = some e) :
    e.errInfo ∈ errInfoValues := by
  simp only [CipherOperands.check] at h
  repeat' split at h
  all_goals first | (simp only [Option.some.injEq] at h; subst h; decide) | simp at h

theorem KeyOperands.errInfo_of_check {o : KeyOperands} {e : CommandError} (h : o.check = some e) :
    e.errInfo ∈ errInfoValues := by
  simp only [KeyOperands.check] at h
  split at h
  · simp only [Option.some.injEq] at h
    subst h
    decide
  · simp at h

theorem State.key_launchRefusal_eq_none {s : State} :
    s.mem.launchRefusal s.keyOperands.ranges = none ↔ s.mem.RangeOk s.keyAddr 16 := by
  simp [Memory.launchRefusal, KeyOperands.ranges, State.keyOperands, Memory.rangeRefusal_eq_none]

theorem State.cipher_launchRefusal_eq_none {s : State} :
    s.mem.launchRefusal s.cipherOperands.ranges = none ↔ s.RangesOk := by
  simp [Memory.launchRefusal, CipherOperands.ranges, State.cipherOperands, Memory.rangeRefusal_eq_none, State.RangesOk]

/-! ### KEYLOAD and KEYDISCARD -/

/-- A turn of KEYLOAD's loop that finds `N[0..r]` computed adds `N[r + 1]` and sets the round index (R123, R125). -/
theorem State.keyRound_eq (s : State) (k : Block) (r : Nat) :
    State.keyRound ((List.range (r + 1)).map (forwardKey k), s) (r + 1) =
      ((List.range (r + 2)).map (forwardKey k), { s with seqR := BitVec.ofNat 4 (r + 1) }) := by
  have hlast : localKey ((List.range (r + 1)).map (forwardKey k)) r = forwardKey k r := by
    simp [localKey, List.getD_eq_getElem?_getD]
  simp only [State.keyRound, Nat.add_sub_cancel, hlast, List.range_succ (n := r + 1), List.map_append, List.map_cons,
    List.map_nil, forwardKey]

/-- The first `j` turns of KEYLOAD's loop compute `N[0..j]` and leave the round index at `j` (R125; R26). -/
theorem State.foldl_keyRound (s : State) (k : Block) (j : Nat) :
    (List.range' 1 (j + 1)).foldl State.keyRound ([k], s) =
      ((List.range (j + 2)).map (forwardKey k), { s with seqR := BitVec.ofNat 4 (j + 1) }) := by
  induction j with
  | zero => exact State.keyRound_eq s k 0
  | succ j ih =>
    rw [List.range'_concat, List.foldl_append, ih]
    simp only [List.foldl_cons, List.foldl_nil, Nat.one_mul, Nat.add_comm 1 (j + 1)]
    exact State.keyRound_eq _ k (j + 1)

/-- The ten rounds compute the forward keys and change only the round index (R125). -/
theorem State.keyRounds_eq (s : State) (k : Block) :
    s.keyRounds k = ((List.range 11).map (forwardKey k), { s with seqR := 10 }) :=
  State.foldl_keyRound s k 9

/-- A schedule depends on `N[0..10]` only (R124). -/
theorem scheduleSlot_congr {n n' : Nat → Block} (h : ∀ j ≤ 10, n j = n' j) {i : Nat} (hi : i < 22) :
    scheduleSlot n i = scheduleSlot n' i := by
  unfold scheduleSlot
  split
  · exact h i ‹_›
  · rw [h 10 (by omega), h 0 (by omega), h (21 - i) (by omega)]

/-- The schedule KEYLOAD places is that of its raw key (R125). -/
theorem scheduleOf_localKey (k : Block) : scheduleOf (localKey ((List.range 11).map (forwardKey k))) = keySchedule k := by
  apply Vector.ext
  intro i hi
  simp only [keySchedule, scheduleOf, Vector.getElem_ofFn]
  apply scheduleSlot_congr _ hi
  intro j hj
  simp [localKey, List.getD_eq_getElem?_getD, List.getElem?_range (show j < 11 by omega)]

/-- The state after a KEYLOAD that executes normally (R125), as one term for the lemmas. -/
theorem execKeyload_of_launch {s : State} (h : s.KeyLaunch) :
    exec .keyload s =
      .next ((s.memRead s.keyAddr).2.storeSchedule
        (keySchedule (s.mem.readBlock s.keyAddr))).forgetRound.complete := by
  simp only [exec, execKeyload, KeyOperands.check_eq_none.2 h.1, State.key_launchRefusal_eq_none.2 h.2, State.keyRounds_eq,
    scheduleOf_localKey]
  rfl

/-- Everything KEYLOAD can do: raise, be refused at launch, or load (R121, R125, R51). -/
theorem execKeyload_cases {s : State} {out : Host.Outcome State Fault Refusal} (h : exec .keyload s = out) :
    (s.keyLen ≠ 16 ∧ out = .next (s.failed 0x11)) ∨
    (s.keyLen = 16 ∧ ¬ s.mem.RangeOk s.keyAddr 16 ∧ ∃ r, out = .refused r) ∨
    (s.KeyLaunch ∧
      out = .next ((s.memRead s.keyAddr).2.storeSchedule
        (keySchedule (s.mem.readBlock s.keyAddr))).forgetRound.complete) := by
  by_cases hl : s.keyLen = 16
  · by_cases hr : s.mem.RangeOk s.keyAddr 16
    · exact .inr (.inr ⟨⟨hl, hr⟩, h ▸ execKeyload_of_launch ⟨hl, hr⟩⟩)
    · refine .inr (.inl ⟨hl, hr, ?_⟩)
      obtain ⟨r, hr'⟩ := Option.ne_none_iff_exists'.1 (mt State.key_launchRefusal_eq_none.1 hr)
      exact ⟨r, by rw [← h]; simp only [exec, execKeyload, KeyOperands.check_eq_none.2 hl, hr']⟩
  · refine .inl ⟨hl, ?_⟩
    rw [← h]
    have hc : s.keyOperands.check = some ⟨.unsupportedKeySize, .key, 0⟩ := by
      unfold KeyOperands.check
      exact if_pos hl
    simp only [exec, execKeyload, hc]
    rfl

/-- KEYDISCARD always completes (R129). -/
theorem execKeydiscard_eq (s : State) :
    exec .keydiscard s = .next s.dropKey.forgetStore.complete := rfl

/-- A slot of a store that holds a key's schedule (R125). -/
theorem State.slot_of_rk {k : Block} {s : State} (h : s.rk = keySchedule k) (i : Fin 22) : s.slot i = scheduleSlot (forwardKey k) i.val := by
  unfold State.slot
  rw [h]
  simp [keySchedule, scheduleOf]

/-- A store that holds a key's schedule meets `KeyOK` (R127). -/
theorem State.keyOK_of_rk {k : Block} {s : State} (hk : s.kvar = .aes128) (h : s.rk = keySchedule k) : s.KeyOK k := by
  have hs := State.slot_of_rk h
  refine ⟨hk, ?_, ?_, ?_, ?_⟩
  · intro r hr
    rw [hs, scheduleSlot, if_pos hr]
  · rw [hs, hs, scheduleSlot, scheduleSlot, if_neg (by decide), if_pos (by decide), if_pos (by decide)]
    rfl
  · rw [hs, hs, scheduleSlot, scheduleSlot, if_neg (by decide), if_neg (by decide), if_pos (by decide), if_pos (by decide)]
    rfl
  · intro r h1 h2
    have hv : (21 - r : Fin 22).val = 21 - r.val := by
      rw [Fin.sub_val_of_le (by rw [Fin.le_def]; simp; omega)]
      rfl
    rw [hs, hs, hv]
    unfold scheduleSlot
    rw [if_neg (by omega), if_neg (by omega), if_neg (by omega), if_pos (by omega)]
    congr 2
    omega

/-- `KeyOK` fixes all 22 slots (R127). -/
theorem State.rk_of_keyOK {k : Block} {s : State} (h : s.KeyOK k) : s.rk = keySchedule k := by
  obtain ⟨-, hf, h11, h21, hi⟩ := h
  apply Vector.ext
  intro i hi'
  have hslot : s.rk[i] = s.slot ⟨i, hi'⟩ := rfl
  rw [hslot]
  simp only [keySchedule, scheduleOf, Vector.getElem_ofFn]
  unfold scheduleSlot
  split
  · exact hf ⟨i, hi'⟩ ‹_›
  split
  · next h => subst h; exact h11.trans (hf 10 (by decide))
  split
  · next h => subst h; exact h21.trans (hf 0 (by decide))
  · have hlt : 21 - i < 22 := by omega
    have hr := hi ⟨21 - i, hlt⟩ (by simp; omega) (by simp; omega)
    rw [hf ⟨21 - i, hlt⟩ (by simp; omega)] at hr
    rw [← hr]
    congr 1
    apply Fin.ext
    rw [Fin.sub_val_of_le (by rw [Fin.le_def]; simp)]
    show i = 21 - (21 - i)
    omega

/-! ### The block loop -/

/-- Nine rounds of ENCRYPT change only ST and the round index (R143). -/
theorem State.foldl_encryptRound (s : State) :
    [1, 2, 3, 4, 5, 6, 7, 8, 9].foldl State.encryptRound s =
      { s with
        st := ([1, 2, 3, 4, 5, 6, 7, 8, 9] : List (Fin 22)).foldl (fun t (r : Fin 22) => aesRound t s.rk[r]) s.st
        seqR := 9 } := by
  simp only [List.foldl, State.encryptRound, State.slot]
  rfl

/-- Nine rounds of DECRYPT change only ST and the round index (R153). -/
theorem State.foldl_decryptRound (s : State) :
    [1, 2, 3, 4, 5, 6, 7, 8, 9].foldl State.decryptRound s =
      { s with
        st := ([1, 2, 3, 4, 5, 6, 7, 8, 9] : List (Fin 22)).foldl (fun t (r : Fin 22) => aesInvRound t s.rk[11 + r]) s.st
        seqR := 9 } := by
  simp only [List.foldl, State.decryptRound, State.slot]
  rfl

/-- The block ENCRYPT's loop writes at its current index (R143). -/
theorem State.encryptStep_eq (o : CipherOperands) (s : State) :
    s.encryptStep o =
      { s with
        st := encryptBlock s.rk ((s.mem.readBlock (o.srcBlock s.seqI)).xor s.fb)
        fb := encryptBlock s.rk ((s.mem.readBlock (o.srcBlock s.seqI)).xor s.fb)
        seqI := s.seqI + 1
        seqR := 10
        mem := s.mem.writeBlock (o.dstBlock s.seqI)
          (encryptBlock s.rk ((s.mem.readBlock (o.srcBlock s.seqI)).xor s.fb))
        accesses := s.accesses ++ [.read (o.srcBlock s.seqI)] ++ [.write (o.dstBlock s.seqI)] } := by
  simp only [State.encryptStep, State.memRead, State.memWrite, State.foldl_encryptRound, State.slot, encryptBlock]

/-- The block DECRYPT's loop writes at its current index (R153). -/
theorem State.decryptStep_eq (o : CipherOperands) (s : State) :
    s.decryptStep o =
      { s with
        st := (decryptBlock s.rk (s.mem.readBlock (o.srcBlock s.seqI))).xor s.fb
        fb := s.mem.readBlock (o.srcBlock s.seqI)
        lcb := s.mem.readBlock (o.srcBlock s.seqI)
        seqI := s.seqI + 1
        seqR := 10
        mem := s.mem.writeBlock (o.dstBlock s.seqI)
          ((decryptBlock s.rk (s.mem.readBlock (o.srcBlock s.seqI))).xor s.fb)
        accesses := s.accesses ++ [.read (o.srcBlock s.seqI)] ++ [.write (o.dstBlock s.seqI)] } := by
  simp only [State.decryptStep, State.memRead, State.memWrite, State.foldl_decryptRound, State.slot, decryptBlock]

theorem exec_encrypt (s : State) : exec .encrypt s = runCipher State.encryptStep State.forgetWork s := rfl

theorem exec_decrypt (s : State) :
    exec .decrypt s = runCipher State.decryptStep (fun s => s.forgetWork.forgetLcb) s := rfl

/-- ENCRYPT where it executes normally (R143). -/
theorem execEncrypt_of_launch {s : State} (h : s.CipherLaunch) :
    exec .encrypt s = .next ((State.encryptStep s.cipherOperands)^[s.blockCount] (s.loadIv s.cipherOperands)).forgetWork.complete := by
  simp only [exec, execEncrypt, runCipher, CipherOperands.check_eq_none.2 ⟨h.1, h.2.1⟩,
    State.cipher_launchRefusal_eq_none.2 h.2.2]
  rfl

/-- DECRYPT where it executes normally (R153). -/
theorem execDecrypt_of_launch {s : State} (h : s.CipherLaunch) :
    exec .decrypt s =
      .next ((State.decryptStep s.cipherOperands)^[s.blockCount] (s.loadIv s.cipherOperands)).forgetWork.forgetLcb.complete := by
  simp only [exec, execDecrypt, runCipher, CipherOperands.check_eq_none.2 ⟨h.1, h.2.1⟩,
    State.cipher_launchRefusal_eq_none.2 h.2.2]
  rfl

/-- Everything the shared frame of the two ciphers can do: raise one of the errors of R163, be refused at launch, or run
(R164, R51). -/
theorem runCipher_cases {body : CipherOperands → State → State} {forget : State → State} {s : State}
    {out : Host.Outcome State Fault Refusal} (h : runCipher body forget s = out) :
    (¬ (s.BuffersOk ∧ s.kvar = .aes128) ∧ ∃ e : CommandError, s.cipherOperands.check s.kvar = some e ∧
      e.errInfo ∈ errInfoValues ∧ out = .next (s.failed e.errInfo)) ∨
    (s.BuffersOk ∧ s.kvar = .aes128 ∧ ¬ s.RangesOk ∧ ∃ r, out = .refused r) ∨
    (s.CipherLaunch ∧
      out = .next (forget ((body s.cipherOperands)^[s.blockCount] (s.loadIv s.cipherOperands))).complete) := by
  by_cases hc : s.BuffersOk ∧ s.kvar = .aes128
  · have hck := CipherOperands.check_eq_none.2 hc
    by_cases hr : s.RangesOk
    · refine .inr (.inr ⟨⟨hc.1, hc.2, hr⟩, ?_⟩)
      rw [← h]
      simp only [runCipher, hck, State.cipher_launchRefusal_eq_none.2 hr]
      rfl
    · refine .inr (.inl ⟨hc.1, hc.2, hr, ?_⟩)
      obtain ⟨r, hr'⟩ := Option.ne_none_iff_exists'.1 (mt State.cipher_launchRefusal_eq_none.1 hr)
      exact ⟨r, by rw [← h]; simp only [runCipher, hck, hr']⟩
  · obtain ⟨e, he⟩ := Option.ne_none_iff_exists'.1 (mt CipherOperands.check_eq_none.1 hc)
    refine .inl ⟨hc, e, he, CipherOperands.errInfo_of_check he, ?_⟩
    rw [← h]
    simp only [runCipher, he]
    rfl

end Sys2Proof.Machine
end

