-- ==== Sys2Proof/Laws/Loop.lean ====
section
/-! SUPPORT. The block loop of ENCRYPT and DECRYPT: what it never touches, the sequencer, the accesses it makes, the memory it
leaves outside the written blocks, and the fact that a block still to be read is as it was (20_memory.md R56, R60; 10_state.md
R26). -/

namespace Sys2Proof.Machine

/-- What every turn keeps, any number of turns keep. -/
theorem iterate_keeps {α β : Type} (g : α → β) {f : α → α} (h : ∀ a, g (f a) = g a) (n : Nat) (a : α) :
    g (f^[n] a) = g a := by
  induction n with
  | zero => rfl
  | succ n ih => rw [Function.iterate_succ_apply', h, ih]

/-- The state without what the block loop works on: ST, FB, LCB, the sequencer, the contents of MEM and the access record. -/
def State.outsideLoop (s : State) : State :=
  { s with st := Block.zero, fb := Block.zero, lcb := Block.zero, seqI := 0, seqR := 0, mem := { s.mem with cells := [] }, accesses := [] }

theorem State.outsideLoop_encryptStep (o : CipherOperands) (s : State) :
    (s.encryptStep o).outsideLoop = s.outsideLoop := by
  rw [State.encryptStep_eq]
  simp only [State.outsideLoop, Memory.writeBlock_map, Memory.writeBlock_aw]

theorem State.outsideLoop_decryptStep (o : CipherOperands) (s : State) :
    (s.decryptStep o).outsideLoop = s.outsideLoop := by
  rw [State.decryptStep_eq]
  simp only [State.outsideLoop, Memory.writeBlock_map, Memory.writeBlock_aw]

theorem State.outsideLoop_loadIv (o : CipherOperands) (s : State) : (s.loadIv o).outsideLoop = s.outsideLoop := rfl

/-- ENCRYPT's loop changes nothing outside (R143). -/
theorem State.outsideLoop_encrypt (o : CipherOperands) (n : Nat) (s : State) :
    ((State.encryptStep o)^[n] (s.loadIv o)).outsideLoop = s.outsideLoop :=
  (iterate_keeps State.outsideLoop (State.outsideLoop_encryptStep o) n _).trans (State.outsideLoop_loadIv o s)

/-- DECRYPT's loop changes nothing outside (R153). -/
theorem State.outsideLoop_decrypt (o : CipherOperands) (n : Nat) (s : State) :
    ((State.decryptStep o)^[n] (s.loadIv o)).outsideLoop = s.outsideLoop :=
  (iterate_keeps State.outsideLoop (State.outsideLoop_decryptStep o) n _).trans (State.outsideLoop_loadIv o s)

theorem State.rk_encrypt (o : CipherOperands) (n : Nat) (s : State) : ((State.encryptStep o)^[n] (s.loadIv o)).rk = s.rk :=
  (congrArg State.rk (State.outsideLoop_encrypt o n s) :)

theorem State.rk_decrypt (o : CipherOperands) (n : Nat) (s : State) : ((State.decryptStep o)^[n] (s.loadIv o)).rk = s.rk :=
  (congrArg State.rk (State.outsideLoop_decrypt o n s) :)

theorem State.kvar_encrypt (o : CipherOperands) (n : Nat) (s : State) : ((State.encryptStep o)^[n] (s.loadIv o)).kvar = s.kvar :=
  (congrArg State.kvar (State.outsideLoop_encrypt o n s) :)

theorem State.kvar_decrypt (o : CipherOperands) (n : Nat) (s : State) : ((State.decryptStep o)^[n] (s.loadIv o)).kvar = s.kvar :=
  (congrArg State.kvar (State.outsideLoop_decrypt o n s) :)

theorem State.cmd_encrypt (o : CipherOperands) (n : Nat) (s : State) : ((State.encryptStep o)^[n] (s.loadIv o)).cmd = s.cmd :=
  (congrArg State.cmd (State.outsideLoop_encrypt o n s) :)

theorem State.cmd_decrypt (o : CipherOperands) (n : Nat) (s : State) : ((State.decryptStep o)^[n] (s.loadIv o)).cmd = s.cmd :=
  (congrArg State.cmd (State.outsideLoop_decrypt o n s) :)

/-- ENCRYPT's loop does not use LCB (R25: "DECRYPT only"). -/
theorem State.lcb_encrypt (o : CipherOperands) (n : Nat) (s : State) :
    ((State.encryptStep o)^[n] (s.loadIv o)).lcb = s.lcb :=
  (iterate_keeps State.lcb (fun s => by rw [State.encryptStep_eq]) n _).trans rfl

/-- The block ENCRYPT's turn writes (R143). -/
def State.encryptOut (o : CipherOperands) (s : State) : Block :=
  encryptBlock s.rk ((s.mem.readBlock (o.srcBlock s.seqI)).xor s.fb)

/-- The block DECRYPT's turn writes (R153). -/
def State.decryptOut (o : CipherOperands) (s : State) : Block :=
  (decryptBlock s.rk (s.mem.readBlock (o.srcBlock s.seqI))).xor s.fb

/-- A turn of either loop, seen from memory: it writes `out` at its output block and records one read and one write. -/
structure LoopTurn (o : CipherOperands) (body : State → State) (out : State → Block) : Prop where
  mem      : ∀ s, (body s).mem = s.mem.writeBlock (o.dstBlock s.seqI) (out s)
  seqI     : ∀ s, (body s).seqI = s.seqI + 1
  accesses : ∀ s, (body s).accesses =
    s.accesses ++ [.read (o.srcBlock s.seqI), .write (o.dstBlock s.seqI)]

theorem loopTurn_encrypt (o : CipherOperands) : LoopTurn o (State.encryptStep o) (State.encryptOut o) where
  mem s := by rw [State.encryptStep_eq]; rfl
  seqI s := by rw [State.encryptStep_eq]
  accesses s := by rw [State.encryptStep_eq]; simp

theorem loopTurn_decrypt (o : CipherOperands) : LoopTurn o (State.decryptStep o) (State.decryptOut o) where
  mem s := by rw [State.decryptStep_eq]; rfl
  seqI s := by rw [State.decryptStep_eq]
  accesses s := by rw [State.decryptStep_eq]; simp

section
variable {o : CipherOperands} {body : State → State} {out : State → Block} (h : LoopTurn o body out) (s : State)
include h

/-- The block index counts the turns (R26). -/
theorem LoopTurn.seqI_iterate (j : Nat) : (body^[j] (s.loadIv o)).seqI = j := by
  induction j with
  | zero => rfl
  | succ j ih => rw [Function.iterate_succ_apply', h.seqI, ih]

/-- The access record of `j` turns: the IV, then each block's read and write (R56). -/
theorem LoopTurn.accesses_iterate (j : Nat) :
    (body^[j] (s.loadIv o)).accesses = s.accesses ++ .read o.ivAddr ::
      (List.range j).flatMap fun i => [.read (o.srcBlock i), .write (o.dstBlock i)] := by
  induction j with
  | zero => rfl
  | succ j ih =>
    rw [Function.iterate_succ_apply', h.accesses, ih, h.seqI_iterate s j]
    simp [List.range_succ, List.flatMap_append]

theorem LoopTurn.mem_succ (j : Nat) :
    (body^[j + 1] (s.loadIv o)).mem =
      (body^[j] (s.loadIv o)).mem.writeBlock (o.dstBlock j) (out (body^[j] (s.loadIv o))) := by
  rw [Function.iterate_succ_apply', h.mem, h.seqI_iterate s j]

/-- Bytes outside the blocks written so far are as they were (R53, R56). -/
theorem LoopTurn.read_iterate (j : Nat) {a : Nat} (ha : a < o.dstAddr ∨ o.dstAddr + 16 * j ≤ a) :
    (body^[j] (s.loadIv o)).mem.read a = s.mem.read a := by
  induction j with
  | zero => rfl
  | succ j ih =>
    rw [h.mem_succ s j, Memory.read_writeBlock_of_outside _ _ (by simp only [CipherOperands.dstBlock]; omega)]
    exact ih (by omega)

/-- The loop keeps the canonical form. -/
theorem LoopTurn.wf_iterate (j : Nat) (hm : s.mem.wf = true) :
    (body^[j] (s.loadIv o)).mem.wf = true := by
  induction j with
  | zero => exact hm
  | succ j ih => rw [h.mem_succ s j]; exact Memory.wf_writeBlock ih ..

/-- Where no output block lands on input still to be read, turn `j` reads the input block as it was before the command (R60). -/
theorem LoopTurn.srcBlock_iterate {n j : Nat} (hj : j < n)
    (ho : o.dstAddr ≤ o.srcAddr ∨ o.srcAddr + 16 * n ≤ o.dstAddr) :
    (body^[j] (s.loadIv o)).mem.readBlock (o.srcBlock j) = s.mem.readBlock (o.srcBlock j) := by
  apply Memory.readBlock_congr
  intro i hi
  apply h.read_iterate s j
  simp only [CipherOperands.srcBlock]
  omega

/-- An output block stays in memory through the later turns (R56: each DST block is written exactly once). -/
theorem LoopTurn.dstBlock_iterate {i j : Nat} (hij : i < j) (hm : s.mem.wf = true) :
    (body^[j] (s.loadIv o)).mem.readBlock (o.dstBlock i) = out (body^[i] (s.loadIv o)) := by
  induction j with
  | zero => omega
  | succ j ih =>
    rw [h.mem_succ s j]
    by_cases he : i = j
    · subst he
      exact Memory.readBlock_writeBlock_eq (h.wf_iterate s i hm) ..
    · rw [Memory.readBlock_writeBlock_of_outside _ _ (by simp only [CipherOperands.dstBlock]; omega)]
      exact ih (by omega)

end

/-- The feedback of ENCRYPT's turn: the IV, then the block written the turn before (R142). -/
theorem State.fb_encrypt (o : CipherOperands) (s : State) (j : Nat) :
    ((State.encryptStep o)^[j] (s.loadIv o)).fb =
      if j = 0 then s.mem.readBlock o.ivAddr else ((State.encryptStep o)^[j - 1] (s.loadIv o)).encryptOut o := by
  cases j with
  | zero => rfl
  | succ j => rw [Function.iterate_succ_apply', State.encryptStep_eq]; rfl

/-- The feedback of DECRYPT's turn: the IV, then the ciphertext block read the turn before (R152). -/
theorem State.fb_decrypt (o : CipherOperands) (s : State) (j : Nat) :
    ((State.decryptStep o)^[j] (s.loadIv o)).fb =
      if j = 0 then s.mem.readBlock o.ivAddr
      else ((State.decryptStep o)^[j - 1] (s.loadIv o)).mem.readBlock (o.srcBlock (j - 1)) := by
  cases j with
  | zero => rfl
  | succ j =>
    rw [Function.iterate_succ_apply', State.decryptStep_eq, (loopTurn_decrypt o).seqI_iterate s j]
    rfl

/-- The block count of a command fits the sequencer (R26: "`AW`-4 bits suffice since n < 2^(`AW`-4)"). -/
theorem State.blockCount_lt {s : State} (h : s.srcLen < 2 ^ s.mem.aw) : s.blockCount < 2 ^ (s.mem.aw - 4) := by
  have hle : 2 ^ s.mem.aw ≤ 2 ^ (s.mem.aw - 4) * 16 := by
    rw [show (16 : Nat) = 2 ^ 4 from rfl, ← Nat.pow_add]
    exact Nat.pow_le_pow_right (by decide) (by omega)
  simp only [State.blockCount]
  omega

end Sys2Proof.Machine
end

