-- ==== Sys2Proof/Laws/Host.lean ====
section
/-! SUPPORT. What one host operation and one command can do, said once (10_state.md R38, R39; 30_encoding.md R77;
60_exceptions.md R166, R167; 70_reset_and_hazards.md R191, R192). -/

namespace Sys2Proof.Machine

/-- A register's own offset selects it (R27). -/
@[simp] theorem target_offset (r : Reg) : target r.offset = .reg r := by
  cases r <;> decide

/-- The register an offset selects stands in the four bytes from its own offset (R27). -/
theorem offset_of_target {off : Nat} {r : Reg} (h : target off = .reg r) : r.offset ≤ off ∧ off < r.offset + 4 := by
  unfold target at h
  split at h
  · cases h
  · split at h
    · cases h
    · split at h
      · next hf =>
        cases h
        simpa using List.find?_some hf
      · cases h

theorem offset_mod (r : Reg) : r.offset % 4 = 0 := by
  cases r <;> rfl

/-- The window's offsets (R27). -/
theorem target_kswin {off : Nat} (h1 : 0x200 ≤ off) (h2 : off < 0x360) : target off = .kswin (off - 0x200) := by
  unfold target
  rw [if_neg (by simp [Config.registerSpace]; omega),
    if_pos (by simp [kswinBase, Config.scheduleBytes, Config.slots, Config.blockBytes]; omega)]
  rfl

/-- The reserved offsets (R27). -/
theorem target_reserved {off : Nat} (h : 0x030 ≤ off ∧ off < 0x200 ∨ 0x360 ≤ off ∧ off < 0x400) : target off = .reserved := by
  unfold target
  rw [if_neg (by simp [Config.registerSpace]; omega),
    if_neg (by simp [kswinBase, Config.scheduleBytes, Config.slots, Config.blockBytes]; omega)]
  have hnone : Reg.all.find? (fun r => decide (r.offset ≤ off ∧ off < r.offset + 4)) = none := by
    rw [List.find?_eq_none]
    intro r _
    have hr : r.offset + 4 ≤ 0x30 := by cases r <;> decide
    simp only [decide_eq_true_eq]
    omega
  rw [hnone]

/-- Every offset below 0x30 is a register's (R27). -/
theorem target_reg {off : Nat} (h : off < 0x30) : ∃ r, target off = .reg r := by
  have hall : ∀ off < 0x30, (match target off with | .reg _ => true | _ => false) = true := by decide
  have hoff := hall off h
  split at hoff
  · exact ⟨_, by assumption⟩
  · cases hoff

/-- A word write of a register is a step of `runCommand` for CMD and of `writeReg` for the others (R39). -/
theorem hostStep_wr (r : Reg) (v : Word) (s : State) :
    hostStep (.wr r v) s = if r = .cmd then runCommand v s else .next (s.writeReg r v) := by
  simp only [HostOp.wr, hostStep, hostRegWrite, target_offset, offset_mod, and_self, if_true]

/-- A word read of a register (R39). -/
theorem hostStep_rd (r : Reg) (s : State) : hostStep (.rd r) s = .next { s with readData := s.readReg r } := by
  simp only [HostOp.rd, hostStep, hostRegRead, target_offset, offset_mod, and_self, if_true]

/-- An aligned access at a register selects the register's own offset. -/
theorem offset_eq_of_target {off : Nat} {r : Reg} (h : target off = .reg r) (ha : off % 4 = 0) : off = r.offset := by
  have := offset_of_target h
  have := offset_mod r
  omega

/-- Everything a host operation can do when the machine goes on. -/
theorem hostStep_cases {op : HostOp} {s t : State} (h : hostStep op s = .next t) :
    (∃ w, op = .wr .cmd w ∧ runCommand w s = .next t) ∨
    (∃ r v, r ≠ .cmd ∧ op = .wr r v ∧ t = s.writeReg r v) ∨
    ((∃ width off v, op = .regWrite width off v) ∧ t = s) ∨
    (((∃ width off, op = .regRead width off) ∨ ∃ a, op = .memRead a) ∧
      ∃ d c, t = { s with readData := d, freeCount := c }) ∨
    (∃ a v, op = .memWrite a v ∧ t = { s with mem := s.mem.write a v }) ∨
    (op = .reset ∧ t = s.resetEvent) ∨
    (∃ w u, op = .commandCutByReset w ∧ runCommand w s = .next u ∧
      t = { s with
        mem := Memory.cut s.mem u.mem s.dstAddr (cutSpan w s) (s.freeCount + 1)
        accesses := u.accesses.take (s.accesses.length + Config.freeNat s.freeCount)
        freeCount := s.freeCount + 1 + cutSpan w s }.resetEvent) := by
  cases op with
  | regWrite width off v =>
    simp only [hostStep, hostRegWrite] at h
    split at h
    · cases h
    · next r hr =>
      split at h
      · next hw =>
        obtain ⟨rfl, ha⟩ := hw
        have := offset_eq_of_target hr ha
        subst this
        split at h
        · next hc => subst hc; exact .inl ⟨v, rfl, h⟩
        · next hc => obtain rfl := Host.Outcome.next.inj h; exact .inr (.inl ⟨r, v, hc, rfl, rfl⟩)
      · cases h
    · split at h
      · obtain rfl := Host.Outcome.next.inj h; exact .inr (.inr (.inl ⟨⟨_, _, _, rfl⟩, rfl⟩))
      · cases h
    · split at h
      · obtain rfl := Host.Outcome.next.inj h; exact .inr (.inr (.inl ⟨⟨_, _, _, rfl⟩, rfl⟩))
      · cases h
  | regRead width off =>
    refine .inr (.inr (.inr (.inl ⟨.inl ⟨_, _, rfl⟩, ?_⟩)))
    simp only [hostStep, hostRegRead] at h
    split at h
    · cases h
    · split at h
      · obtain rfl := Host.Outcome.next.inj h; exact ⟨_, _, rfl⟩
      · cases h
    · split at h
      · obtain rfl := Host.Outcome.next.inj h
        unfold State.readWindow
        split <;> exact ⟨_, _, rfl⟩
      · cases h
    · split at h
      · obtain rfl := Host.Outcome.next.inj h; exact ⟨_, _, rfl⟩
      · cases h
  | memWrite a v =>
    simp only [hostStep, hostMemWrite] at h
    split at h
    · cases h
    · cases h
    obtain rfl := Host.Outcome.next.inj h
    exact .inr (.inr (.inr (.inr (.inl ⟨a, v, rfl, rfl⟩))))
  | memRead a =>
    simp only [hostStep, hostMemRead] at h
    split at h
    · cases h
    · cases h
    obtain rfl := Host.Outcome.next.inj h
    exact .inr (.inr (.inr (.inl ⟨.inr ⟨a, rfl⟩, _, _, rfl⟩)))
  | reset =>
    obtain rfl := Host.Outcome.next.inj h
    exact .inr (.inr (.inr (.inr (.inr (.inl ⟨rfl, rfl⟩)))))
  | commandCutByReset w =>
    simp only [hostStep, runCutByReset] at h
    split at h
    · next u hu =>
      obtain rfl := Host.Outcome.next.inj h
      exact .inr (.inr (.inr (.inr (.inr (.inr ⟨w, u, rfl, hu, rfl⟩)))))
    · cases h
    · cases h

/-- Everything a CMD write can do when the machine goes on: fail with one of the eight values and no other effect, or run its
command whole (R74, R77, R166, R171). -/
theorem runCommand_cases {w : Word} {s t : State} (h : runCommand w s = .next t) :
    (∃ e ∈ errInfoValues, t = { s with cmd := w }.failed e) ∨
    (decode w = .ok .keyload ∧ s.KeyLaunch ∧
      t = (({ s with cmd := w }.memRead s.keyAddr).2.storeSchedule
        (keySchedule (s.mem.readBlock s.keyAddr))).forgetRound.complete) ∨
    (decode w = .ok .encrypt ∧ s.CipherLaunch ∧
      t = ((State.encryptStep s.cipherOperands)^[s.blockCount]
        ({ s with cmd := w }.loadIv s.cipherOperands)).forgetWork.complete) ∨
    (decode w = .ok .decrypt ∧ s.CipherLaunch ∧
      t = ((State.decryptStep s.cipherOperands)^[s.blockCount]
        ({ s with cmd := w }.loadIv s.cipherOperands)).forgetWork.forgetLcb.complete) ∨
    (decode w = .ok .keydiscard ∧ t = { s with cmd := w }.dropKey.forgetStore.complete) := by
  simp only [runCommand, State.writeReg] at h
  split at h
  · next i hi =>
    cases i with
    | keyload =>
      rcases execKeyload_cases h with ⟨-, h⟩ | ⟨-, -, r, h⟩ | ⟨hl, h⟩
      · obtain rfl := Host.Outcome.next.inj h; exact .inl ⟨0x11, by decide, rfl⟩
      · cases h
      · obtain rfl := Host.Outcome.next.inj h; exact .inr (.inl ⟨hi, hl, rfl⟩)
    | encrypt =>
      rcases runCipher_cases ((exec_encrypt _).symm.trans h) with ⟨-, e, -, he, h⟩ | ⟨-, -, -, r, h⟩ | ⟨hl, h⟩
      · obtain rfl := Host.Outcome.next.inj h; exact .inl ⟨e.errInfo, he, rfl⟩
      · cases h
      · obtain rfl := Host.Outcome.next.inj h; exact .inr (.inr (.inl ⟨hi, hl, rfl⟩))
    | decrypt =>
      rcases runCipher_cases ((exec_decrypt _).symm.trans h) with ⟨-, e, -, he, h⟩ | ⟨-, -, -, r, h⟩ | ⟨hl, h⟩
      · obtain rfl := Host.Outcome.next.inj h; exact .inl ⟨e.errInfo, he, rfl⟩
      · cases h
      · obtain rfl := Host.Outcome.next.inj h; exact .inr (.inr (.inr (.inl ⟨hi, hl, rfl⟩)))
    | keydiscard => obtain rfl := Host.Outcome.next.inj h; exact .inr (.inr (.inr (.inr ⟨hi, rfl⟩)))
  · obtain rfl := Host.Outcome.next.inj h
    exact .inl ⟨0x07, by decide, rfl⟩

/-- A step performs the oldest pending operation. -/
theorem step_cons {s : State} {op : HostOp} {rest : List HostOp} (h : s.pending = op :: rest) :
    step s = hostStep op { s with pending := rest } := by
  unfold step
  rw [h]

end Sys2Proof.Machine
end

