-- ==== Sys2Proof/Laws/PerInstr.lean ====
section
/-! SUPPORT. Statements made of every instruction, one lemma per constructor (30_encoding.md R71, R72). -/

namespace Sys2Proof.Laws.Encoding

/-- A command's word is legal, has nothing in `RSV`, and decodes to the command, in the opcode table's numbering too (R71, R72). -/
def Statement (i : Instr) : Prop :=
  i.wellFormed = true ∧ wellFormedWord (encode i) = true ∧ rsvField (encode i) = 0 ∧ opcField (encode i) = opcode i ∧
    decode (encode i) = .ok i ∧ decodeTableWord 32 (encode i).toNat = some i

theorem keyload : Statement .keyload := by unfold Statement; decide

theorem encrypt : Statement .encrypt := by unfold Statement; decide

theorem decrypt : Statement .decrypt := by unfold Statement; decide

theorem keydiscard : Statement .keydiscard := by unfold Statement; decide

end Sys2Proof.Laws.Encoding
end

