-- ==== Sys2Proof/Laws/Round.lean ====
section
/-! SUPPORT. Byte and block algebra: ⊕ on words and blocks, doubling and multiplication as additive maps, and the way to check an
additive map on the eight single-bit bytes (40_round_primitives.md R90 to R92). -/

namespace Sys2Proof

theorem Col.xor_assoc (a b c : Col) : (a.xor b).xor c = a.xor (b.xor c) := by
  simp [Col.xor, BitVec.xor_assoc]

theorem Col.xor_comm (a b : Col) : a.xor b = b.xor a := by
  simp [Col.xor, BitVec.xor_comm]

@[simp] theorem Col.xor_self (a : Col) : a.xor a = Col.zero := by
  simp [Col.xor, Col.zero]

@[simp] theorem Col.xor_zero (a : Col) : a.xor Col.zero = a := by
  simp [Col.xor, Col.zero]

theorem Block.xor_assoc (a b c : Block) : (a.xor b).xor c = a.xor (b.xor c) := by
  simp [Block.xor, Col.xor_assoc]

theorem Block.xor_comm (a b : Block) : a.xor b = b.xor a := by
  simp only [Block.xor, Col.xor_comm]

@[simp] theorem Block.xor_self (a : Block) : a.xor a = Block.zero := by
  simp [Block.xor, Block.zero]

@[simp] theorem Block.xor_zero (a : Block) : a.xor Block.zero = a := by
  simp [Block.xor, Block.zero]

/-- Adding the same block twice gives the first back (R103). -/
@[simp] theorem Block.xor_xor_cancel (a b : Block) : (a.xor b).xor b = a := by
  rw [Block.xor_assoc, Block.xor_self, Block.xor_zero]

theorem Block.map_map (f g : Byte → Byte) (b : Block) : (b.map g).map f = b.map (fun x => f (g x)) := rfl

namespace Machine

theorem xor_xor_xor_comm (a b c d : Byte) : (a ^^^ b) ^^^ (c ^^^ d) = (a ^^^ c) ^^^ (b ^^^ d) := by
  rw [BitVec.xor_assoc, ← BitVec.xor_assoc b, BitVec.xor_comm b c, BitVec.xor_assoc c, ← BitVec.xor_assoc]

/-- Doubling is additive (R91). -/
theorem xtime_xor (a b : Byte) : xtime (a ^^^ b) = xtime a ^^^ xtime b := by
  unfold xtime
  rw [BitVec.shiftLeft_xor_distrib, BitVec.getLsbD_xor, xor_xor_xor_comm]
  congr 1
  cases a.getLsbD 7 <;> cases b.getLsbD 7 <;> rfl

/-- What bit `k` of the second factor contributes: `v` or nothing. -/
def pick (c : Bool) (v : Byte) : Byte := if c then v else 0

theorem pick_xor_bit (c d : Bool) (v : Byte) : pick (c ^^ d) v = pick c v ^^^ pick d v := by
  cases c <;> cases d <;> simp [pick]

theorem pick_xor (c : Bool) (v w : Byte) : pick c (v ^^^ w) = pick c v ^^^ pick c w := by
  cases c <;> simp [pick]

/-- R92's loop, its eight turns written as a sum. -/
theorem gmul_eq_sum (a b : Byte) :
    gmul a b = pick (b.getLsbD 0) a ^^^ pick (b.getLsbD 1) (xtime a) ^^^ pick (b.getLsbD 2) (xtime (xtime a)) ^^^
      pick (b.getLsbD 3) (xtime (xtime (xtime a))) ^^^ pick (b.getLsbD 4) (xtime (xtime (xtime (xtime a)))) ^^^
      pick (b.getLsbD 5) (xtime (xtime (xtime (xtime (xtime a))))) ^^^
      pick (b.getLsbD 6) (xtime (xtime (xtime (xtime (xtime (xtime a)))))) ^^^
      pick (b.getLsbD 7) (xtime (xtime (xtime (xtime (xtime (xtime (xtime a))))))) := by
  have hp : ∀ (c : Bool) (p v : Byte), (if c then p ^^^ v else p) = p ^^^ pick c v := by
    intro c p v
    cases c <;> simp [pick]
  have hr : List.range 8 = [0, 1, 2, 3, 4, 5, 6, 7] := rfl
  simp only [gmul, hr, List.foldl, hp]
  simp

/-- Multiplication is additive in its first factor (R92). -/
theorem gmul_xor_left (a b c : Byte) : gmul (a ^^^ b) c = gmul a c ^^^ gmul b c := by
  simp only [gmul_eq_sum, xtime_xor, pick_xor]
  iterate 7
    refine Eq.trans ?_ (xor_xor_xor_comm _ _ _ _)
    congr 1

/-- Multiplication is additive in its second factor (R92). -/
theorem gmul_xor_right (a b c : Byte) : gmul a (b ^^^ c) = gmul a b ^^^ gmul a c := by
  simp only [gmul_eq_sum, BitVec.getLsbD_xor, pick_xor_bit]
  iterate 7
    refine Eq.trans ?_ (xor_xor_xor_comm _ _ _ _)
    congr 1

/-- Two additive maps of bytes that agree on the eight single-bit bytes agree everywhere. -/
theorem additive_ext {f g : Byte → Byte} (hf : ∀ a b, f (a ^^^ b) = f a ^^^ f b) (hg : ∀ a b, g (a ^^^ b) = g a ^^^ g b)
    (h : ∀ k < 8, f (1#8 <<< k) = g (1#8 <<< k)) (x : Byte) : f x = g x := by
  have hsum : ∀ x : Byte, x = pick (x.getLsbD 0) (1#8 <<< 0) ^^^ pick (x.getLsbD 1) (1#8 <<< 1) ^^^
      pick (x.getLsbD 2) (1#8 <<< 2) ^^^ pick (x.getLsbD 3) (1#8 <<< 3) ^^^ pick (x.getLsbD 4) (1#8 <<< 4) ^^^
      pick (x.getLsbD 5) (1#8 <<< 5) ^^^ pick (x.getLsbD 6) (1#8 <<< 6) ^^^ pick (x.getLsbD 7) (1#8 <<< 7) := by
    decide +kernel
  have hzero : ∀ {f : Byte → Byte}, (∀ a b, f (a ^^^ b) = f a ^^^ f b) → f 0 = 0 := by
    intro f hf
    have := hf 0 0
    simpa using this
  have hz : f 0 = g 0 := (hzero hf).trans (hzero hg).symm
  have hpick : ∀ (c : Bool) (k : Nat), k < 8 → f (pick c (1#8 <<< k)) = g (pick c (1#8 <<< k)) := by
    intro c k hk
    cases c
    · exact hz
    · simpa [pick] using h k hk
  rw [hsum x]
  simp only [hf, hg]
  rw [hpick _ 0 (by omega), hpick _ 1 (by omega), hpick _ 2 (by omega), hpick _ 3 (by omega), hpick _ 4 (by omega),
    hpick _ 5 (by omega), hpick _ 6 (by omega), hpick _ 7 (by omega)]

end Machine

end Sys2Proof
end

