-- ==== Sys2Proof/Tests/Slice0.lean ====
section
/-! SUPPORT. Tests of the model against the spec's own encodings and vectors (30_encoding.md, 40_round_primitives.md,
95_test_vectors.md), and, for every statement that has hypotheses, a concrete state that meets them. -/

namespace Sys2Proof.Tests

open Sys2Proof.Machine

-- One theorem after another: checked all at once, their threads' stacks alone pass the memory limit.
set_option Elab.async false

/-! ### Helpers -/

/-- A block from 32 hex digits, byte 0 first. -/
def hex (n : Nat) : Block := Block.ofFn fun j => BitVec.ofNat 8 (n >>> (8 * (15 - j)))

/-- A word of a block from 8 hex digits. -/
def hexCol (n : Nat) : Col :=
  ⟨BitVec.ofNat 8 (n >>> 24), BitVec.ofNat 8 (n >>> 16), BitVec.ofNat 8 (n >>> 8), BitVec.ofNat 8 n⟩

/-- The key of V2. -/
def key2 : Block := hex 0x2b7e151628aed2a6abf7158809cf4f3c

/-- Memory with blocks stored. -/
def memOf (blocks : List (Nat × Block)) : Memory := blocks.foldl (fun m p => m.writeBlock p.1 p.2) State.reset.mem

theorem foldl_writeBlock_wf (blocks : List (Nat × Block)) {m : Memory} (h : m.wf = true) :
    (blocks.foldl (fun m p => m.writeBlock p.1 p.2) m).wf = true := by
  induction blocks generalizing m with
  | nil => exact h
  | cons p rest ih =>
    rw [List.foldl_cons]
    exact ih (Memory.wf_writeBlock h p.1 p.2)

theorem memOf_wf (blocks : List (Nat × Block)) : (memOf blocks).wf = true :=
  foldl_writeBlock_wf blocks State.reset_mem_wf

/-- A state ready for KEYLOAD. -/
def keyState (m : Memory) (a len : Nat) : State := { State.reset with mem := m, keyAddr := a, keyLen := len }

/-- A state ready for ENCRYPT or DECRYPT with key V2. -/
def cipherState (m : Memory) (iv src dst len : Nat) : State :=
  { State.reset with
    kvar := .aes128, rk := keySchedule key2, mem := m
    ivAddr := iv, ivLen := 16, srcAddr := src, srcLen := len, dstAddr := dst, dstLen := len }

/-- The state an outcome goes on in. -/
def after : Host.Outcome State Fault Refusal → State
  | .next t => t
  | .fault _ => State.reset
  | .refused _ => State.reset

/-- The outcome goes on. -/
def goesOn : Host.Outcome State Fault Refusal → Bool
  | .next _ => true
  | .fault _ => false
  | .refused _ => false

theorem eq_after {o : Host.Outcome State Fault Refusal} (h : goesOn o = true) : o = .next (after o) := by
  cases o with
  | next t => rfl
  | fault f => cases h
  | refused r => cases h

theorem launch_of {s : State} (h : s.cipherOperands.check s.kvar = none)
    (h' : s.mem.launchRefusal s.cipherOperands.ranges = none) : s.CipherLaunch :=
  have hc := CipherOperands.check_eq_none.1 h
  ⟨hc.1, hc.2, State.cipher_launchRefusal_eq_none.1 h'⟩

theorem keyLaunch_of {s : State} (h : s.keyOperands.check = none)
    (h' : s.mem.launchRefusal s.keyOperands.ranges = none) : s.KeyLaunch :=
  ⟨KeyOperands.check_eq_none.1 h, State.key_launchRefusal_eq_none.1 h'⟩

/-! ### Well-formedness: an ill-formed word for each check -/

/-- `RSV` not zero (R71; 95_test_vectors.md section 5). -/
theorem test_wellFormed_refuses_reserved_bits :
    rsvZero 0x00000101 = false ∧ opcListed 0x00000101 = true ∧ wellFormedWord 0x00000101 = false := by decide

/-- `OPC` outside the opcode map (R72, R74). -/
theorem test_wellFormed_refuses_unknown_opcode :
    opcListed 0x00000005 = false ∧ rsvZero 0x00000005 = true ∧ wellFormedWord 0x00000005 = false ∧
      wellFormedWord 0x00000000 = false := by decide

/-! ### Decoding: words written out from R71 and R72, RSV bits 31:8, OPC bits 7:0 -/

theorem test_decode_keyload : decode 0b00000000000000000000000000000001 = .ok .keyload := by decide

theorem test_decode_encrypt : decode 0b00000000000000000000000000000010 = .ok .encrypt := by decide

theorem test_decode_decrypt : decode 0b00000000000000000000000000000011 = .ok .decrypt := by decide

theorem test_decode_keydiscard : decode 0b00000000000000000000000000000100 = .ok .keydiscard := by decide

/-- The table's numbering: bit 0 least significant, 32 bits; a longer or other word is none. -/
theorem test_decodeTableWord :
    decodeTableWord 32 3 = some .decrypt ∧ decodeTableWord 32 0x80000003 = none ∧ decodeTableWord 32 0 = none ∧
      decodeTableWord 32 0x100000001 = none := by decide

/-! ### Round primitives (V8 of 95_test_vectors.md) -/

theorem test_gmul : gmul 0x57 0x83 = 0xc1 ∧ gmul 0x57 0x13 = 0xfe ∧ gmul 0x0e 0xff = 0x8d ∧ gmul 0x02 0x80 = 0x1b := by
  decide +kernel

theorem test_ginv : ginv 0x53 = 0xca ∧ ginv 0xff = 0x1c ∧ ginv 0x02 = 0x8d ∧ ginv 0x00 = 0x00 := by decide +kernel

theorem test_sbox :
    sbox 0x00 = 0x63 ∧ sbox 0x10 = 0xca ∧ sbox 0xff = 0x16 ∧ invSbox 0x52 = 0x48 ∧ invSbox 0xff = 0x7d ∧
      sboxAffine (ginv 0x53) = 0xed := by decide +kernel

theorem test_shiftRows :
    shiftRows (hex 0x000102030405060708090a0b0c0d0e0f) = hex 0x00050a0f04090e03080d02070c01060b ∧
      invShiftRows (hex 0x000102030405060708090a0b0c0d0e0f) = hex 0x000d0a0704010e0b0805020f0c090603 := by decide +kernel

theorem test_mixColumns :
    mixColumn (hexCol 0xdb135345) = hexCol 0x8e4da1bc ∧
      invMixColumns (hex 0x000102030405060708090a0b0c0d0e0f) = hex 0x0a0f080d0e0b0c090207000506030401 := by decide +kernel

theorem test_aesRound :
    aesRound (hex 0x193de3bea0f4e22b9ac68d2ae9f84808) (hex 0xa0fafe1788542cb123a339392a6c7605) =
        hex 0xa49c7ff2689f352b6b5bea43026a5049 ∧
      aesFinalRound (hex 0xeb40f21e592e38848ba113e71bc342d2) (hex 0xd014f9a8c9ee2589e13f0cc8b6630ca6) =
        hex 0x3925841d02dc09fbdc118597196a0b32 := by decide +kernel

theorem test_aesInvRound :
    aesInvRound (hex 0xe9317db5cb322c723d2e895faf090794) (hex 0x0c7b5a631319eafeb0398890664cfbb4) =
        hex 0x876e46a6f24ce78c4d904ad897ecc395 ∧
      aesInvFinalRound (hex 0xd4bf5d30e0b452aeb84111f11e2798e5) (hex 0x2b7e151628aed2a6abf7158809cf4f3c) =
        hex 0x3243f6a8885a308d313198a2e0370734 := by decide +kernel

theorem test_rotWord_subWord :
    rotWord (hexCol 0x09cf4f3c) = hexCol 0xcf4f3c09 ∧ subWord (hexCol 0xcf4f3c09) = hexCol 0x8a84eb01 := by decide +kernel

/-! ### The commands, one step each -/

/-- P1 and V2: slots 1, 10, 12 and 20 after KEYLOAD, the tag and the status words. -/
theorem test_keyload_schedule :
    (let t := after (exec .keyload (keyState (memOf [(0x1000, key2)]) 0x1000 16))
     t.slot 1 = hex 0xa0fafe1788542cb123a339392a6c7605 ∧ t.slot 10 = hex 0xd014f9a8c9ee2589e13f0cc8b6630ca6 ∧
       t.slot 12 = hex 0x0c7b5a631319eafeb0398890664cfbb4 ∧ t.slot 20 = hex 0x2b3708a7f262d405bc3ebdbf4b617d62 ∧
       t.kvar = .aes128 ∧ t.status = 0x1) := by decide +kernel

/-- K5: a 24-byte key with a key loaded. -/
theorem test_keyload_other_length :
    (let t := after (exec .keyload { cipherState State.reset.mem 0 0 0 0 with keyLen := 24 })
     t.status = 0x3 ∧ t.errInfo = 0x11 ∧ t.kvar = .aes128 ∧ t.slot 0 = key2) := by decide +kernel

/-- V7, its first two blocks (R145). -/
theorem test_encrypt_two_blocks :
    (let t := after (exec .encrypt (cipherState
       (memOf [(0x100, hex 0x000102030405060708090a0b0c0d0e0f), (0x200, hex 0x6bc1bee22e409f96e93d7e117393172a),
         (0x210, hex 0xae2d8a571e03ac9c9eb76fac45af8e51)]) 0x100 0x200 0x300 32))
     t.mem.readBlock 0x300 = hex 0x7649abac8119b246cee98e9b12e9197d ∧
       t.mem.readBlock 0x310 = hex 0x5086cb9b507219ee95db113a917678b2 ∧ t.status = 0x1) := by decide +kernel

/-- V13 f: partial forward overlap, the second input block already overwritten when it is read. -/
theorem test_encrypt_forward_overlap :
    (let t := after (exec .encrypt (cipherState
       (memOf [(0x100, hex 0x000102030405060708090a0b0c0d0e0f), (0x200, hex 0x6bc1bee22e409f96e93d7e117393172a),
         (0x210, hex 0xae2d8a571e03ac9c9eb76fac45af8e51)]) 0x100 0x200 0x210 32))
     t.mem.readBlock 0x200 = hex 0x6bc1bee22e409f96e93d7e117393172a ∧
       t.mem.readBlock 0x210 = hex 0x7649abac8119b246cee98e9b12e9197d ∧
       t.mem.readBlock 0x220 = hex 0x7df76b0c1ab899b33e42f047b91b546f) := by decide +kernel

/-- V9 b: one byte of the first ciphertext block changed. -/
theorem test_decrypt_corrupted :
    (let t := after (exec .decrypt (cipherState
       (memOf [(0x100, hex 0x000102030405060708090a0b0c0d0e0f), (0x200, hex 0x7749abac8119b246cee98e9b12e9197d),
         (0x210, hex 0x5086cb9b507219ee95db113a917678b2)]) 0x100 0x200 0x300 32))
     t.mem.readBlock 0x300 = hex 0x155b8fb754de88b0a543b30341f4a1c6 ∧
       t.mem.readBlock 0x310 = hex 0xaf2d8a571e03ac9c9eb76fac45af8e51 ∧ t.errInfo = 0) := by decide +kernel

/-- V13 d: DST below SRC by 8. -/
theorem test_decrypt_backward_overlap :
    (let t := after (exec .decrypt (cipherState
       (memOf [(0x100, hex 0x000102030405060708090a0b0c0d0e0f), (0x208, hex 0x7649abac8119b246cee98e9b12e9197d),
         (0x218, hex 0x5086cb9b507219ee95db113a917678b2)]) 0x100 0x208 0x200 32))
     t.mem.readBlock 0x200 = hex 0x6bc1bee22e409f96e93d7e117393172a ∧
       t.mem.readBlock 0x210 = hex 0xae2d8a571e03ac9c9eb76fac45af8e51) := by decide +kernel

/-- K9, run through `step` from a CMD write. -/
theorem test_keydiscard :
    (let t := after (step ((cipherState State.reset.mem 0 0 0 0).withFetchWord 32 4))
     t.kvar = .none ∧ t.status = 0x1 ∧ t.errInfo = 0 ∧ t.cmd = 4) := by decide +kernel

/-- E3, E6, E13, E16, E20, E15 of 95_test_vectors.md section 5. -/
theorem test_error_vectors :
    (let check := fun (src dst iv : Nat) (k : KVar) =>
       ((⟨0, iv, 0, src, 0, dst⟩ : CipherOperands).check k).map CommandError.errInfo
     check 17 32 16 .aes128 = some 0x1033 ∧ check 32 20 16 .aes128 = some 0x1043 ∧ check 32 16 15 .aes128 = some 0x22 ∧
       check 17 16 16 .none = some 0x1033 ∧ check 0xFFFFFFF0 0xFFFFFFE0 16 .aes128 = some 0x44 ∧
       check 16 16 16 .none = some 0x05) := by decide +kernel

/-- 95_test_vectors.md section 5: the word 0x00010002 does not run ENCRYPT. -/
theorem test_illegal_word :
    (let t := after (step { State.reset with pending := [.wr .cmd 0x00010002] })
     t.status = 0x3 ∧ t.errInfo = 0x7 ∧ t.cmd = 0x00010002 ∧ t.kvar = .none) := by decide +kernel

/-- V12: the accesses of one block, in order. -/
theorem test_accesses :
    (after (exec .encrypt { cipherState State.reset.mem 0x2000 0x2100 0x2200 16 with dstLen := 48 })).accesses =
      [.read 0x2000, .read 0x2100, .write 0x2200] := by decide +kernel

/-- R7, R29, R51 with `AW` = 8: an operand register keeps 8 bits, and 0x100 is no address. -/
theorem test_narrow_address_width :
    (let s : State := { State.reset with mem := { State.reset.mem with aw := 8 } }
     (after (step { s with pending := [.wr .srcLen 0xFFFFFF20] })).srcLen = 0x20 ∧
       s.mem.kindAt 0xFF = some .ordinary ∧ s.mem.kindAt 0x100 = none ∧
       goesOn (step { s with pending := [.memRead 0x100] }) = false) := by decide +kernel

/-- R7, R29, R51 with `AW` = 40: a key at an address above 2^32. -/
theorem test_wide_address_width :
    (let m : Memory := { aw := 40, map := [⟨0, 2 ^ 40, .ordinary⟩], cells := [] }
     let t := after (exec .keyload (keyState (m.writeBlock 0x8000000000 key2) 0x8000000000 16))
     t.slot 10 = hex 0xd014f9a8c9ee2589e13f0cc8b6630ca6 ∧ t.accesses = [.read 0x8000000000]) := by decide +kernel

/-- R26, R125: three rounds of KEYLOAD on the key of V2: `r` is 3 and `N[1]` is computed. -/
theorem test_keyload_round_index :
    (let x := [1, 2, 3].foldl State.keyRound ([key2], State.reset)
     x.2.seqR = 3 ∧ localKey x.1 1 = hex 0xa0fafe1788542cb123a339392a6c7605 ∧ x.1.length = 4) := by decide +kernel

/-! ### Witnesses: states that meet the statements' hypotheses -/

/-- Two blocks of input at 0x200, the IV at 0x100, output at 0x300. -/
def ready : State := cipherState (memOf [(0x100, hex 0xa5), (0x200, hex 1), (0x210, hex 2)]) 0x100 0x200 0x300 32

/-- `ready` with the second input block changed, in place. -/
def ready' : State := cipherState (memOf [(0x100, hex 0xa5), (0x200, hex 1), (0x210, hex 3)]) 0x100 0x200 0x200 32

/-- The key of V2 at 0x1000. -/
def readyKey : State := keyState (memOf [(0x1000, key2)]) 0x1000 16

theorem test_ready : ready.mem.wf = true ∧ ready.CipherLaunch ∧ ready.NoForwardOverlap :=
  ⟨memOf_wf _, launch_of (by decide +kernel) (by decide +kernel), .inr (by decide)⟩

theorem test_ready' : ready'.mem.wf = true ∧ ready'.CipherLaunch ∧ ready'.NoForwardOverlap :=
  ⟨memOf_wf _, launch_of (by decide +kernel) (by decide +kernel), .inl (by decide)⟩

theorem test_readyKey : readyKey.KeyLaunch := keyLaunch_of (by decide +kernel) (by decide +kernel)

theorem test_witness_DecodeOfEncode : Instr.keyload.wellFormed = true := rfl

theorem test_witness_IllegalWordRaisesIllegalCommand :
    (let s : State := { State.reset with pending := [.wr .cmd 0x00000101, .wr .cmd 0x00000005] }
     s.pending = .wr .cmd 0x00000101 :: [.wr .cmd 0x00000005]) ∧
    BitVec.extractLsb' 8 24 (0x00000101#32) ≠ 0 ∧
    BitVec.extractLsb' 0 8 (0x00000005#32) ∉ [0x01#8, 0x02#8, 0x03#8, 0x04#8] := by decide

theorem test_witness_StepRunsTheDecodedCommand :
    ({ State.reset with pending := [.wr .cmd 4] } : State).pending = .wr .cmd 4 :: [] ∧ decode 4 = .ok .keydiscard := by decide

theorem test_witness_IdleEngineKeepsItsState : State.reset.pending = [] := rfl

theorem test_witness_OperandRegisterWrite :
    Reg.keyAddr ∉ [Reg.cmd, Reg.status, Reg.errInfo, Reg.keyVar] ∧
    Reg.dstLen ∉ [Reg.cmd, Reg.status, Reg.errInfo, Reg.keyVar] ∧
    ({ State.reset with pending := [.wr .keyAddr 0xFFFFFFFF] } : State).pending = .wr .keyAddr 0xFFFFFFFF :: [] ∧
    32 ≤ State.reset.mem.aw := by decide

theorem test_witness_RegisterRead : ({ State.reset with pending := [.rd .dstLen] } : State).pending = .rd .dstLen :: [] := rfl

theorem test_witness_KeyvarRegister :
    ({ State.reset with pending := [.rd .keyVar] } : State).pending = .rd .keyVar :: [] ∧ State.reset.kvar = .none ∧
    ({ ready with pending := [.wr .keyVar 0] } : State).pending = .wr .keyVar 0 :: [] ∧ ready.kvar = .aes128 :=
  ⟨rfl, rfl, rfl, rfl⟩

/-- Boundary offsets of every clause of RegisterAccessRules: the window's first and last byte, both reserved ranges' ends, the
registers' ends with another width and with no alignment. -/
theorem test_witness_RegisterAccessRules :
    Reg.status ∈ [Reg.status, Reg.errInfo, Reg.keyVar] ∧
    target 0x200 = .kswin 0 ∧ target 0x35F = .kswin 351 ∧ target 0x030 = .reserved ∧ target 0x1FF = .reserved ∧
    target 0x360 = .reserved ∧ target 0x3FF = .reserved ∧ target 0x02F = .reg .dstLen ∧ target 0x000 = .reg .cmd ∧
    target 0x400 = .outside ∧
    (0x030 ≤ 0x1FC ∧ 0x1FC < 0x200 ∨ 0x360 ≤ 0x1FC ∧ 0x1FC < 0x400) ∧ 0x1FC % 4 = 0 ∧
    (0x030 ≤ 0x3FC ∧ 0x3FC < 0x200 ∨ 0x360 ≤ 0x3FC ∧ 0x3FC < 0x400) ∧ 0x3FC % 4 = 0 ∧
    (Width.word ≠ .word ∨ 0x02F % 4 ≠ 0) ∧ (Width.half ≠ .word ∨ 0x02C % 4 ≠ 0) ∧ Width.word ≠ .byte ∧
    ({ State.reset with pending := [.regRead .half 0x02C] } : State).pending = .regRead .half 0x02C :: [] := by decide

theorem test_witness_ScheduleWindowRead :
    351 < 352 ∧ ({ ready with pending := [.rdks 351] } : State).pending = .rdks 351 :: [] ∧ ready.kvar = .aes128 ∧
    State.reset.kvar = .none ∧
    ({ ready with pending := [.regWrite .byte (0x200 + 0) 1] } : State).pending = .regWrite .byte (0x200 + 0) 1 :: [] :=
  ⟨by decide, rfl, rfl, rfl, rfl⟩

theorem test_witness_CmdHoldsTheWordWritten :
    (let s : State := { State.reset with pending := [.wr .cmd 4] }
     s.pending = .wr .cmd 4 :: [] ∧ step s = .next (after (step s))) :=
  ⟨rfl, eq_after (by decide +kernel)⟩

theorem test_witness_ResetEventValues :
    ({ ready with pending := [.reset] } : State).pending = .reset :: [] ∧ ({ ready with kvar := .none } : State).kvar = .none ∧
    ({ ready with kvar := .none } : State).BuffersOk :=
  ⟨rfl, rfl, test_ready.2.1.1⟩

theorem test_witness_ResetDuringCommand :
    (let s : State := { ready with pending := [.commandCutByReset 2] }
     s.mem.wf = true ∧ s.pending = .commandCutByReset 2 :: [] ∧
       runCommand 2 { s with pending := [] } = .next (after (runCommand 2 { s with pending := [] }))) :=
  ⟨memOf_wf _, rfl, eq_after (by decide +kernel)⟩

theorem test_witness_KeyloadOfAnotherLength :
    State.reset.keyLen ≠ 16 ∧ readyKey.keyLen = 16 ∧ exec .keyload readyKey = .next (after (exec .keyload readyKey)) :=
  ⟨by decide, rfl, eq_after (by decide +kernel)⟩

theorem test_witness_KeyloadLoadsTheSchedule : readyKey.KeyLaunch := test_readyKey

theorem test_witness_KeyloadSlotByRecurrence : readyKey.KeyLaunch ∧ 15 < 16 ∧ 9 < 10 ∧ 1 ≤ 9 := ⟨test_readyKey, by decide⟩

theorem test_witness_KeyloadFrame :
    exec .keyload readyKey = .next (after (exec .keyload readyKey)) ∧
    exec .keyload State.reset = .next (after (exec .keyload State.reset)) ∧ (after (exec .keyload State.reset)).err = true :=
  ⟨eq_after (by decide +kernel), eq_after (by decide +kernel), by decide +kernel⟩

theorem test_witness_KeyloadIsAFunctionOfTheKeyBytes :
    (let other := keyState (memOf [(0x2001, key2)]) 0x2001 16
     readyKey.KeyLaunch ∧ other.KeyLaunch ∧
       ∀ j < 16, readyKey.mem.read (readyKey.keyAddr + j) = other.mem.read (other.keyAddr + j)) :=
  ⟨test_readyKey, keyLaunch_of (by decide +kernel) (by decide +kernel), by decide +kernel⟩

theorem test_witness_KeydiscardEndsTheKey : ready.BuffersOk := test_ready.2.1.1

/-- One state for each of the six checks, the ones before it passing. -/
theorem test_witness_CipherCheckOrder :
    State.reset.srcLen = 0 ∧
    ({ ready with srcLen := 17 } : State).srcLen % 16 ≠ 0 ∧
    ({ ready with dstLen := 20 } : State).dstLen % 16 ≠ 0 ∧
    ({ ready with ivLen := 17 } : State).ivLen ≠ 16 ∧
    ({ ready with dstLen := 16 } : State).dstLen < ({ ready with dstLen := 16 } : State).srcLen ∧
    ({ ready with kvar := .none } : State).srcLen ≤ ({ ready with kvar := .none } : State).dstLen ∧
    ({ ready with kvar := .none } : State).kvar ≠ .aes128 ∧ ready.srcLen ≠ 0 ∧ ready.srcLen % 16 = 0 ∧
    ready.dstLen % 16 = 0 ∧ ready.ivLen = 16 := by decide +kernel

theorem test_witness_EncryptFollowsTheAccessOrder : ready.CipherLaunch ∧ 1 < ready.blockCount := ⟨test_ready.2.1, by decide⟩

theorem test_witness_DecryptFollowsTheAccessOrder : ready.CipherLaunch ∧ 1 < ready.blockCount := ⟨test_ready.2.1, by decide⟩

theorem test_witness_EncryptChainsItsBlocks :
    (ready.mem.wf = true ∧ ready.CipherLaunch ∧ ready.NoForwardOverlap) ∧
      (ready'.mem.wf = true ∧ ready'.CipherLaunch ∧ ready'.NoForwardOverlap) := ⟨test_ready, test_ready'⟩

theorem test_witness_DecryptChainsItsBlocks :
    (ready.mem.wf = true ∧ ready.CipherLaunch ∧ ready.NoForwardOverlap) ∧
      (ready'.mem.wf = true ∧ ready'.CipherLaunch ∧ ready'.NoForwardOverlap) := ⟨test_ready, test_ready'⟩

theorem test_witness_CipherFrame :
    exec .encrypt ready = .next (after (exec .encrypt ready)) ∧ exec .decrypt ready = .next (after (exec .decrypt ready)) ∧
    exec .encrypt State.reset = .next (after (exec .encrypt State.reset)) ∧
    (after (exec .encrypt State.reset)).err = true ∧ 0x2FF < ready.dstAddr ∧
    ready.dstAddr + ready.srcLen ≤ 0x320 :=
  ⟨eq_after (by decide +kernel), eq_after (by decide +kernel), eq_after (by decide +kernel), by decide +kernel, by decide,
    by decide⟩

theorem test_witness_AccessesInOrder :
    readyKey.KeyLaunch ∧ ready.CipherLaunch ∧ exec .decrypt State.reset = .next (after (exec .decrypt State.reset)) ∧
    (after (exec .decrypt State.reset)).err = true :=
  ⟨test_readyKey, test_ready.2.1, eq_after (by decide +kernel), by decide +kernel⟩

theorem test_witness_ControlFlowIgnoresData :
    (let other : State := { ready with mem := State.reset.mem }
     ready.keyOperands = other.keyOperands ∧ ready.cipherOperands = other.cipherOperands ∧ ready.kvar = other.kvar ∧
       ready.mem.aw = other.mem.aw ∧ ready.mem.map = other.mem.map ∧ ready.accesses = other.accesses ∧
       exec .encrypt ready = .next (after (exec .encrypt ready))) :=
  ⟨rfl, rfl, rfl, by decide +kernel, by decide +kernel, rfl, eq_after (by decide +kernel)⟩

/-- ENCRYPT `ready`, then decrypt its output in place. -/
theorem test_witness_CommandRoundTrip :
    (let t := after (exec .encrypt ready)
     let u : State := { t with srcAddr := 0x300, dstAddr := 0x300 }
     ready.mem.wf = true ∧ ready.KeyOK key2 ∧ ready.CipherLaunch ∧ ready.NoForwardOverlap ∧ exec .encrypt ready = .next t ∧
       u.mem.wf = true ∧ u.CipherLaunch ∧ u.NoForwardOverlap ∧ u.rk = t.rk ∧ u.srcLen = ready.srcLen ∧
       u.ivBlock = ready.ivBlock ∧
       ∀ i < ready.blockCount, u.srcBlock i = t.mem.readBlock (ready.dstAddr + 16 * i)) :=
  ⟨test_ready.1, State.keyOK_of_rk rfl rfl, test_ready.2.1, test_ready.2.2, eq_after (by decide +kernel),
    by decide +kernel, launch_of (by decide +kernel) (by decide +kernel), .inl (by decide +kernel), rfl, by decide +kernel,
    by decide +kernel, fun _ _ => rfl⟩

theorem test_witness_LeadingCiphertextBlocksDependOnLeadingPlaintext :
    ready.CipherLaunch ∧ ready'.CipherLaunch ∧ ready.NoForwardOverlap ∧ ready'.NoForwardOverlap ∧ ready.rk = ready'.rk ∧
    ready.ivBlock = ready'.ivBlock ∧ 1 ≤ ready.blockCount ∧ 1 ≤ ready'.blockCount ∧
    ∀ i < 1, ready.srcBlock i = ready'.srcBlock i :=
  ⟨test_ready.2.1, test_ready'.2.1, test_ready.2.2, test_ready'.2.2, rfl, by decide +kernel, by decide, by decide,
    by decide +kernel⟩

/-- `ready` with the first input block changed by `hex 0x80`, in place. -/
def flipped : State := cipherState (memOf [(0x100, hex 0xa5), (0x200, hex 0x81), (0x210, hex 2)]) 0x100 0x200 0x200 32

theorem test_flipped : flipped.mem.wf = true ∧ flipped.CipherLaunch ∧ flipped.NoForwardOverlap :=
  ⟨memOf_wf _, launch_of (by decide +kernel) (by decide +kernel), .inl (by decide)⟩

theorem ready_rk : ready.rk = keySchedule key2 := Eq.refl (keySchedule key2)

theorem flipped_rk : flipped.rk = keySchedule key2 := Eq.refl (keySchedule key2)

theorem test_flipped_blocks :
    flipped.srcBlock 0 = (ready.srcBlock 0).xor (hex 0x80) ∧ flipped.srcBlock 1 = ready.srcBlock 1 := by decide +kernel

theorem test_witness_CiphertextChangeFlipsTheNextBlock :
    ready.mem.wf = true ∧ flipped.mem.wf = true ∧ ready.CipherLaunch ∧ flipped.CipherLaunch ∧ ready.NoForwardOverlap ∧
      flipped.NoForwardOverlap ∧ ready.rk = flipped.rk ∧ 0 + 1 < ready.blockCount ∧ 0 + 1 < flipped.blockCount ∧
      flipped.srcBlock 0 = (ready.srcBlock 0).xor (hex 0x80) ∧ flipped.srcBlock 1 = ready.srcBlock 1 :=
  ⟨test_ready.1, test_flipped.1, test_ready.2.1, test_flipped.2.1, test_ready.2.2, test_flipped.2.2,
    ready_rk.trans flipped_rk.symm, by decide, by decide,
    test_flipped_blocks⟩

theorem test_witness_SequencerCountsTheBlocks : 2 ≤ ready.blockCount ∧ ready.srcLen < 2 ^ ready.mem.aw := by decide

theorem test_witness_SequencerCountsTheRounds : 1 ≤ 1 ∧ 1 ≤ 10 ∧ 10 ≤ 10 ∧ 9 ≤ 9 := by decide

/-- A range that wraps, one that is absent, one that is a device's. -/
theorem test_witness_BadRangesAreRefused :
    (let wraps := keyState State.reset.mem 0xFFFFFFF1 16
     let absent := keyState ⟨32, [⟨0x1000, 15, .ordinary⟩], []⟩ 0x1000 16
     let device : State := { ready with mem := ⟨32, [⟨0x300, 1, .device⟩, ⟨0, 0x1000, .ordinary⟩], []⟩ }
     (wraps.keyLen = 16 ∧ ¬ wraps.mem.RangeOk wraps.keyAddr 16) ∧
       (absent.keyLen = 16 ∧ ¬ absent.mem.RangeOk absent.keyAddr 16) ∧
       device.BuffersOk ∧ device.kvar = .aes128 ∧ ¬ device.RangesOk) :=
  ⟨⟨rfl, mt State.key_launchRefusal_eq_none.2 (by decide +kernel)⟩,
    ⟨rfl, mt State.key_launchRefusal_eq_none.2 (by decide +kernel)⟩, test_ready.2.1.1, rfl,
    mt State.cipher_launchRefusal_eq_none.2 (by decide +kernel)⟩

theorem test_witness_StepKeepsTheInvariant :
    (let s : State := { ready with pending := [.wr .cmd 2] }
     s.Inv ∧ step s = .next (after (step s))) :=
  ⟨⟨memOf_wf _, fun _ => State.keyOK_of_rk rfl rfl, .inl ⟨rfl, rfl⟩, by decide +kernel, by decide +kernel⟩, eq_after (by decide +kernel)⟩

theorem test_witness_StoreIsImmutable :
    (let s : State := { readyKey with pending := [.wr .cmd 1] }
     s.pending = .wr .cmd 1 :: [] ∧ step s = .next (after (step s)) ∧ (after (step s)).rk ≠ s.rk) :=
  ⟨rfl, eq_after (by decide +kernel), fun h => absurd (congrArg (fun v => v[(1 : Fin 22)]) h) (by decide +kernel)⟩

theorem test_witness_LoadedKeyStaysLoaded :
    (exec .keyload readyKey = .next (after (exec .keyload readyKey)) ∧ (after (exec .keyload readyKey)).err = false) ∧
    (let s : State := { ready with pending := [.wr .cmd 2] }
     s.KeyOK key2 ∧ step s = .next (after (step s))) :=
  ⟨⟨eq_after (by decide +kernel), by decide +kernel⟩, State.keyOK_of_rk rfl rfl, eq_after (by decide +kernel)⟩

theorem test_witness_KeyTagChangesOnlyByLoadDiscardReset :
    (let s : State := { readyKey with pending := [.wr .cmd 1] }
     s.pending = .wr .cmd 1 :: [] ∧ step s = .next (after (step s)) ∧ (after (step s)).kvar ≠ s.kvar) ∧
    (let s : State := { ready with pending := [.reset] }
     s.pending = .reset :: [] ∧ step s = .next (after (step s)) ∧ (after (step s)).kvar ≠ s.kvar) :=
  ⟨⟨rfl, eq_after (by decide +kernel), by decide +kernel⟩, ⟨rfl, eq_after (by decide +kernel), by decide +kernel⟩⟩

theorem test_witness_MemoryChangesOnlyByCipherOrHost :
    (let s : State := { ready with pending := [.wr .cmd 2] }
     s.pending = .wr .cmd 2 :: [] ∧ step s = .next (after (step s)) ∧ (after (step s)).mem.read 0x300 ≠ s.mem.read 0x300) ∧
    (let s : State := { ready with pending := [.memWrite 0xFFFFFFFF 1] }
     s.pending = .memWrite 0xFFFFFFFF 1 :: [] ∧ step s = .next (after (step s)) ∧
       (after (step s)).mem.read 0xFFFFFFFF ≠ s.mem.read 0xFFFFFFFF) :=
  ⟨⟨rfl, eq_after (by decide +kernel), by decide +kernel⟩, ⟨rfl, eq_after (by decide +kernel), by decide +kernel⟩⟩

theorem test_witness_FailedCommandChangesOnlyTheStatus :
    runCommand 7 ready = .next (after (runCommand 7 ready)) ∧ (after (runCommand 7 ready)).err = true :=
  ⟨eq_after (by decide +kernel), by decide +kernel⟩

theorem test_witness_ErrinfoValues :
    runCommand 1 State.reset = .next (after (runCommand 1 State.reset)) ∧ runCommand 3 ready = .next (after (runCommand 3 ready)) :=
  ⟨eq_after (by decide +kernel), eq_after (by decide +kernel)⟩

theorem test_witness_DoneIsClearedOnlyByReset :
    (let s : State := { State.reset with status := 3, pending := [.reset] }
     s.pending = .reset :: [] ∧ step s = .next (after (step s)) ∧ s.done = true ∧ (after (step s)).done = false) :=
  ⟨rfl, eq_after (by decide +kernel), by decide +kernel, by decide +kernel⟩

theorem test_witness_CommandsIgnoreTheOldWorkingRegisters : exec .encrypt ready = .next (after (exec .encrypt ready)) :=
  eq_after (by decide +kernel)

theorem test_witness_BlockWriteStoresItsBytes : ready.mem.wf = true ∧ (0x1000 ≤ 0x100F ∧ 0x100F < 0x1000 + 16) :=
  ⟨memOf_wf _, by decide⟩

theorem test_witness_HostStoreThenLoad :
    (let s : State := { ready with pending := [.memWrite 0xFFFFFFFF 0, .memRead 0xFFFFFFFF] }
     s.mem.wf = true ∧ s.mem.kindAt 0xFFFFFFFF = some .ordinary ∧
       s.pending = .memWrite 0xFFFFFFFF 0 :: .memRead 0xFFFFFFFF :: []) :=
  ⟨memOf_wf _, by decide +kernel, rfl⟩

theorem test_witness_GinvIsTheInverse : (0xFF : Byte) ≠ 0 := by decide

end Sys2Proof.Tests
end

/-! The round-key store, the schedule window and KEYVAR (10_state.md R23, R30, R33). -/

namespace Sys2Proof.Machine

/-! ### The word a command has -/

/-- A command word is its two fields, `RSV` above `OPC` (R71). -/
theorem rsvField_append_opcField (w : Word) : rsvField w ++ opcField w = w := by
  have hjoin : w.extractLsb' 8 24 ++ w.extractLsb' 0 8 = w.extractLsb' 0 (24 + 8) :=
    BitVec.extractLsb'_append_extractLsb'_eq_extractLsb' rfl
  exact hjoin.trans BitVec.extractLsb'_eq_self

/-- The decoder accepts only a word with zero `RSV` and the command's `OPC` (R72, R74). -/
theorem fields_of_decode {w : Word} {i : Instr} (h : decode w = .ok i) : rsvField w = 0 ∧ opcField w = opcode i := by
  unfold decode at h
  split at h
  · cases h
  · next hrsv =>
    refine ⟨not_not.1 hrsv, ?_⟩
    repeat' split at h
    all_goals cases h
    all_goals assumption

/-- The only word that decodes to a command is the command's own encoding (R72). -/
theorem eq_encode_of_decode {w : Word} {i : Instr} (h : decode w = .ok i) : w = encode i := by
  obtain ⟨hrsv, hopc⟩ := fields_of_decode h
  rw [← rsvField_append_opcField w, hrsv, hopc]
  rfl

/-! ### The store -/

/-- A write of a register, CMD included, leaves the store alone (R23). -/
@[simp] theorem State.writeReg_rk (s : State) (r : Reg) (v : Word) : (s.writeReg r v).rk = s.rk := by
  cases r <;> rfl

/-- A CMD write leaves the store alone unless it is a KEYLOAD that succeeds or a KEYDISCARD (R23). -/
theorem runCommand_rk {w : Word} {s t : State} (h : runCommand w s = .next t) :
    t.rk = s.rk ∨ (w = encode .keyload ∧ t.err = false) ∨ w = encode .keydiscard := by
  rcases runCommand_cases h with ⟨e, -, rfl⟩ | ⟨hw, -, rfl⟩ | ⟨-, -, rfl⟩ | ⟨-, -, rfl⟩ | ⟨hw, -⟩
  · exact .inl rfl
  · exact .inr (.inl ⟨eq_encode_of_decode hw, State.complete_err _⟩)
  · left; simp only [State.complete_rk, State.forgetWork_rk, State.rk_encrypt]
  · left; simp only [State.complete_rk, State.forgetLcb_rk, State.forgetWork_rk, State.rk_decrypt]
  · exact .inr (.inr (eq_encode_of_decode hw))

/-- Settles O38: of the operations a step can perform, only those that create or end an AesKey write the store (R23). -/
theorem storeIsImmutable : Obligations.StoreIsImmutable := by
  intro s t op rest hp hstep hrk
  rw [step_cons hp] at hstep
  rcases hostStep_cases hstep with ⟨w, rfl, hrun⟩ | ⟨r, v, -, -, rfl⟩ | ⟨-, rfl⟩ | ⟨-, d, c, rfl⟩ | ⟨a, v, -, rfl⟩ |
    ⟨hop, -⟩ | ⟨w, -, hop, -⟩
  · rcases runCommand_rk hrun with hsame | ⟨rfl, herr⟩ | rfl
    · exact absurd hsame hrk
    · exact .inl ⟨rfl, herr⟩
    · exact .inr (.inl rfl)
  · exact absurd (State.writeReg_rk _ r v) hrk
  · exact absurd rfl hrk
  · exact absurd rfl hrk
  · exact absurd rfl hrk
  · exact .inr (.inr (.inl hop))
  · exact .inr (.inr (.inr ⟨w, hop⟩))

/-! ### The schedule window -/

/-- The offset of `KSWIN[n]` selects byte `n` of the window (R27). -/
theorem target_kswin_add {n : Nat} (hn : n < 352) : target (0x200 + n) = .kswin n := by
  rw [target_kswin (by omega) (by omega), Nat.add_sub_cancel_left]

/-- A byte read of `KSWIN[n]` (R33, R39). -/
theorem hostStep_rdks {n : Nat} (hn : n < 352) (s : State) : hostStep (.rdks n) s = .next (s.readWindow n) := by
  simp only [HostOp.rdks, kswinBase, hostStep, hostRegRead, target_kswin_add hn, if_true]

/-- With a key loaded the window shows the schedule and nothing else changes (R33). -/
theorem State.readWindow_of_aes128 (s : State) (h : s.kvar = .aes128) (n : Nat) :
    s.readWindow n = { s with readData := (s.scheduleByte n).setWidth 32 } := by
  simp only [State.readWindow, h]

/-- Without a key the window shows a fresh free value (R33; U3). -/
theorem State.readWindow_of_none (s : State) (h : s.kvar = .none) (n : Nat) :
    s.readWindow n =
      { s with readData := (Config.freeByte s.freeCount).setWidth 32, freeCount := s.freeCount + 1 } := by
  simp only [State.readWindow, h]

/-- A byte write into the window is ignored (R33, R38). -/
theorem hostStep_write_kswin {n : Nat} (hn : n < 352) (v : Word) (s : State) :
    hostStep (.regWrite .byte (0x200 + n) v) s = .next s := by
  simp only [hostStep, hostRegWrite, target_kswin_add hn, Width.bytes, Nat.mod_one, if_true]

/-- Settles O11: the window's read by the two values of KVAR, and its ignored write (R33). -/
theorem scheduleWindowRead : Obligations.ScheduleWindowRead := by
  intro s rest n hn
  refine ⟨fun hp => ⟨fun hk => ?_, fun hk => ?_⟩, fun v hp => ?_⟩
  · rw [step_cons hp, hostStep_rdks hn, State.readWindow_of_aes128 { s with pending := rest } hk]
    rfl
  · refine ⟨Config.freeByte s.freeCount, s.freeCount + 1, ?_⟩
    rw [step_cons hp, hostStep_rdks hn, State.readWindow_of_none { s with pending := rest } hk]
  · rw [step_cons hp, hostStep_write_kswin hn]

/-! ### KEYVAR -/

/-- A read of KEYVAR returns the tag's code (R30). -/
@[simp] theorem State.readReg_keyVar (s : State) : s.readReg .keyVar = s.kvar.code :=
  BitVec.ofNat_toNat 32 s.kvar.code

/-- The code of a tag has nothing above its two low bits (R30). -/
theorem KVar.code_upper (k : KVar) : k.code.extractLsb' 2 30 = 0 := by
  cases k <;> rfl

/-- Settles O9: a read answers the tag's code, and the write is one of a read-only register (R30, R38). -/
theorem keyvarRegister : Obligations.KeyvarRegister := by
  intro s rest
  refine ⟨fun hp => ⟨_, by rw [step_cons hp, hostStep_rd], ?_⟩, fun v hp => ?_⟩
  · simp only [State.readReg_keyVar]
    refine ⟨KVar.code_upper s.kvar, fun hk => ?_, fun hk => ?_⟩
    · rw [hk]; rfl
    · rw [hk]; rfl
  · rw [step_cons hp, hostStep_wr, if_neg (by decide)]
    rfl

end Sys2Proof.Machine

/-! Memory: the bytes a block write stores, and the accesses a command makes (20_memory.md R53, R56). -/

namespace Sys2Proof.Machine

/-- Settles O47: the byte is one of the sixteen written, or it stands outside them (R53). -/
theorem blockWriteStoresItsBytes : Obligations.BlockWriteStoresItsBytes := by
  intro m a v x hwf
  split
  · next hin =>
    obtain ⟨j, rfl⟩ := Nat.exists_eq_add_of_le hin.1
    rw [Nat.add_sub_cancel_left]
    exact Memory.read_writeBlock_of_inside hwf a v (Nat.lt_of_add_lt_add_left hin.2)
  · next hout => exact Memory.read_writeBlock_of_outside m v (by omega)

/-! ### A command that fails -/

/-- ENCRYPT or DECRYPT that ends with ERR set failed a check, so it changed STATUS and ERRINFO only (R166). -/
theorem runCipher_eq_failed {body : CipherOperands → State → State} {forget : State → State} {s t : State}
    (h : runCipher body forget s = .next t) (herr : t.err = true) : ∃ e, t = s.failed e := by
  rcases runCipher_cases h with ⟨-, e, -, -, hout⟩ | ⟨-, -, -, r, hout⟩ | ⟨-, hout⟩
  · exact ⟨e.errInfo, Host.Outcome.next.inj hout⟩
  · cases hout
  · rw [Host.Outcome.next.inj hout, State.complete_err] at herr
    cases herr

/-- KEYLOAD that ends with ERR set failed its check, so it changed STATUS and ERRINFO only (R121, R166). -/
theorem execKeyload_eq_failed {s t : State} (h : exec .keyload s = .next t) (herr : t.err = true) :
    ∃ e, t = s.failed e := by
  rcases execKeyload_cases h with ⟨-, hout⟩ | ⟨-, -, r, hout⟩ | ⟨-, hout⟩
  · exact ⟨0x11, Host.Outcome.next.inj hout⟩
  · cases hout
  · rw [Host.Outcome.next.inj hout, State.complete_err] at herr
    cases herr

/-- KEYDISCARD never ends with ERR set (R129). -/
theorem execKeydiscard_err {s t : State} (h : exec .keydiscard s = .next t) : t.err = false := by
  obtain rfl := Host.Outcome.next.inj ((execKeydiscard_eq s).symm.trans h)
  exact State.complete_err _

/-- A command that ends with ERR set changed STATUS and ERRINFO only (R166). -/
theorem exec_eq_failed {i : Instr} {s t : State} (h : exec i s = .next t) (herr : t.err = true) :
    ∃ e, t = s.failed e := by
  cases i with
  | keyload => exact execKeyload_eq_failed h herr
  | encrypt => exact runCipher_eq_failed ((exec_encrypt s).symm.trans h) herr
  | decrypt => exact runCipher_eq_failed ((exec_decrypt s).symm.trans h) herr
  | keydiscard => rw [execKeydiscard_err h] at herr; cases herr

/-! ### The accesses of a command -/

/-- KEYLOAD reads the key and accesses nothing else (R56). -/
theorem execKeyload_accesses {s : State} (h : s.KeyLaunch) :
    ∃ t, exec .keyload s = .next t ∧ t.accesses = s.accesses ++ [.read s.keyAddr] := by
  refine ⟨_, execKeyload_of_launch h, ?_⟩
  simp only [State.complete_accesses, State.forgetRound_accesses, State.storeSchedule_accesses,
    State.memRead_snd_accesses]

/-- The loop of either cipher reads the IV, then reads and writes each block in turn (R56). -/
theorem LoopTurn.accesses_command {s : State} {body : State → State} {out : State → Block}
    (h : LoopTurn s.cipherOperands body out) :
    (body^[s.blockCount] (s.loadIv s.cipherOperands)).accesses = s.accesses ++ .read s.ivAddr ::
      (List.range s.blockCount).flatMap fun j => [.read (s.srcAddr + 16 * j), .write (s.dstAddr + 16 * j)] :=
  h.accesses_iterate s s.blockCount

/-- Settles O28: each command's accesses where it executes normally, and none where it fails (R56). -/
theorem accessesInOrder : Obligations.AccessesInOrder := by
  refine ⟨fun s h => execKeyload_accesses h, ?_, fun s => ⟨_, execKeydiscard_eq s, ?_⟩, fun s t i h herr => ?_⟩
  · rintro s i (rfl | rfl) h
    · refine ⟨_, execEncrypt_of_launch h, ?_⟩
      rw [State.complete_accesses, State.forgetWork_accesses, (loopTurn_encrypt _).accesses_command]
    · refine ⟨_, execDecrypt_of_launch h, ?_⟩
      rw [State.complete_accesses, State.forgetLcb_accesses, State.forgetWork_accesses,
        (loopTurn_decrypt _).accesses_command]
  · simp only [State.complete_accesses, State.forgetStore_accesses, State.dropKey_accesses]
  · obtain ⟨e, rfl⟩ := exec_eq_failed h herr
    rfl

end Sys2Proof.Machine

/-! The decoder against the opcode map, and the words that are no command (30_encoding.md R72, R74). -/

namespace Sys2Proof.Machine

/-! ### The opcode map -/

/-- Every command's word is sound, whichever the command (R71, R72). -/
theorem encoding_statement (i : Instr) : Laws.Encoding.Statement i := by
  cases i with
  | keyload => exact Laws.Encoding.keyload
  | encrypt => exact Laws.Encoding.encrypt
  | decrypt => exact Laws.Encoding.decrypt
  | keydiscard => exact Laws.Encoding.keydiscard

/-- A command's word decodes to the command (R71, R72). -/
@[simp] theorem decode_encode (i : Instr) : decode (encode i) = .ok i := by
  obtain ⟨-, -, -, -, hdecode, -⟩ := encoding_statement i
  exact hdecode

/-- A word decodes to a command exactly where it is the command's word (R72). -/
theorem decode_eq_ok_iff {w : Word} {i : Instr} : decode w = .ok i ↔ w = encode i :=
  ⟨eq_encode_of_decode, fun h => h ▸ decode_encode i⟩

theorem encode_keyload : encode .keyload = 0x00000001 := rfl

theorem encode_encrypt : encode .encrypt = 0x00000002 := rfl

theorem encode_decrypt : encode .decrypt = 0x00000003 := rfl

theorem encode_keydiscard : encode .keydiscard = 0x00000004 := rfl

/-- Settles O1: a word decodes to a command exactly where it is the command's word, and the opcode map lists the four (R72). -/
theorem decodeIsTheOpcodeMap : Obligations.DecodeIsTheOpcodeMap := by
  intro w i
  rw [decode_eq_ok_iff]
  cases i with
  | keyload => simp [encode_keyload]
  | encrypt => simp [encode_encrypt]
  | decrypt => simp [encode_decrypt]
  | keydiscard => simp [encode_keydiscard]

/-! ### Illegal words -/

/-- The `OPC` of a command is one of the four of the opcode map (R72). -/
theorem opcode_mem (i : Instr) : opcode i ∈ [0x01#8, 0x02#8, 0x03#8, 0x04#8] := by
  cases i <;> decide

/-- A word with something in `RSV`, or with an `OPC` the map does not list, is rejected (R74). -/
theorem decode_illegal {w : Word} (h : rsvField w ≠ 0 ∨ opcField w ∉ [0x01#8, 0x02#8, 0x03#8, 0x04#8]) :
    ∃ e, decode w = .error e := by
  cases hdecode : decode w with
  | error e => exact ⟨e, rfl⟩
  | ok i =>
    obtain ⟨hrsv, hopc⟩ := fields_of_decode hdecode
    rcases h with hnonzero | hunlisted
    · exact absurd hrsv hnonzero
    · exact absurd (hopc ▸ opcode_mem i) hunlisted

/-- A CMD write of a word the decoder rejects stores the word and raises IllegalCommand (R74, R161, R166). -/
theorem runCommand_of_decode_error {w : Word} {e : DecodeError} (h : decode w = .error e) (s : State) :
    runCommand w s = .next ({ s with cmd := w }.failed 0x7) := by
  simp only [runCommand, h]
  rfl

/-- Settles O4: the step writes the word to CMD, and the decoder rejects it (R74). -/
theorem illegalWordRaisesIllegalCommand : Obligations.IllegalWordRaisesIllegalCommand := by
  intro s w rest hp hillegal
  obtain ⟨e, he⟩ := decode_illegal hillegal
  rw [step_cons hp, hostStep_wr, if_pos rfl, runCommand_of_decode_error he]
  rfl

end Sys2Proof.Machine

/-! The round primitives (40_round_primitives.md R92 to R108): the field product and its inverse, the S-box, ShiftRows, and
MixColumns as the product with a fixed polynomial. -/

namespace Sys2Proof.Machine

/-! ### The field product (R92) -/

/-- After `n` turns of R92's loop the running factor is `n` doublings of `a`, and the sum holds the doublings that the bits of
`b` below `n` select. -/
theorem gmul_loop (a b : Byte) (n : Nat) :
    (List.range n).foldl (fun (pa : Byte × Byte) k => (if b.getLsbD k then pa.1 ^^^ pa.2 else pa.1, xtime pa.2)) (0x00, a) =
      ((List.range n).foldl (fun p k => if b.getLsbD k then p ^^^ xtime^[k] a else p) 0x00, xtime^[n] a) := by
  induction n with
  | zero => rfl
  | succ n ih =>
    rw [List.range_succ, List.foldl_append, List.foldl_append, ih, Function.iterate_succ_apply']
    rfl

theorem gmul_eq_foldl (a b : Byte) :
    gmul a b = (List.range 8).foldl (fun p k => if b.getLsbD k then p ^^^ xtime^[k] a else p) 0x00 :=
  congrArg Prod.fst (gmul_loop a b 8)

/-- A factor with the one bit `k` doubles `k` times. -/
theorem gmul_bit (a : Byte) {k : Nat} (hk : k < 8) : gmul a (1#8 <<< k) = xtime^[k] a := by
  interval_cases k <;> simp [gmul_eq_sum, pick]

@[simp] theorem gmul_zero (a : Byte) : gmul a 0#8 = 0#8 := by simp [gmul_eq_sum, pick]

@[simp] theorem gmul_one (a : Byte) : gmul a 1#8 = a := gmul_bit a (k := 0) (by decide)

theorem one_gmul (a : Byte) : gmul 1#8 a = a :=
  additive_ext (g := id) (gmul_xor_right 1#8) (fun _ _ => rfl) (by decide) a

theorem xtime_pick (c : Bool) (v : Byte) : xtime (pick c v) = pick c (xtime v) := by
  cases c with
  | false => exact (by decide : xtime 0 = 0)
  | true => rfl

/-- Doubling the first factor doubles the product. -/
theorem gmul_xtime_left (a b : Byte) : gmul (xtime a) b = xtime (gmul a b) := by
  simp only [gmul_eq_sum, xtime_xor, xtime_pick]

theorem gmul_iterate_xtime_left (a b : Byte) (k : Nat) : gmul (xtime^[k] a) b = xtime^[k] (gmul a b) := by
  induction k with
  | zero => rfl
  | succ k ih => rw [Function.iterate_succ_apply', gmul_xtime_left, ih, Function.iterate_succ_apply']

/-- Both sides are additive in `b`, and on the byte with the one bit `k` both are `k` doublings of `a`. -/
theorem gmul_comm (a b : Byte) : gmul a b = gmul b a := by
  refine additive_ext (g := (gmul · a)) (gmul_xor_right a) (fun b c => gmul_xor_left b c a) (fun k hk => ?_) b
  have hbit : 1#8 <<< k = xtime^[k] 1#8 := (one_gmul _).symm.trans (gmul_bit 1#8 hk)
  calc gmul a (1#8 <<< k)
      = xtime^[k] a := gmul_bit a hk
    _ = gmul (xtime^[k] 1#8) a := by rw [gmul_iterate_xtime_left, one_gmul]
    _ = gmul (1#8 <<< k) a := by rw [hbit]

/-- Both sides are additive in `c`, and on the byte with the one bit `k` both are `k` doublings of `gmul a b`. -/
theorem gmul_assoc (a b c : Byte) : gmul (gmul a b) c = gmul a (gmul b c) := by
  have hright : ∀ c d : Byte, gmul a (gmul b (c ^^^ d)) = gmul a (gmul b c) ^^^ gmul a (gmul b d) := by
    intro c d
    rw [gmul_xor_right, gmul_xor_right]
  refine additive_ext (g := fun c => gmul a (gmul b c)) (gmul_xor_right _) hright (fun k hk => ?_) c
  calc gmul (gmul a b) (1#8 <<< k)
      = xtime^[k] (gmul b a) := by rw [gmul_bit _ hk, gmul_comm a]
    _ = gmul a (xtime^[k] b) := by rw [← gmul_iterate_xtime_left, gmul_comm]
    _ = gmul a (gmul b (1#8 <<< k)) := by rw [gmul_bit b hk]

/-- Settles O49: the loop's invariant, additivity in both factors, and the doublings each constant's bits select (R92). -/
theorem gmulFieldLaws : Obligations.GmulFieldLaws := by
  refine ⟨gmul_eq_foldl, gmul_comm, gmul_assoc, gmul_xor_right, fun a => ?_, by decide, by decide⟩
  simp only [gmul_eq_sum]
  simp [pick, BitVec.xor_comm, BitVec.xor_assoc]

/-! ### The inverse (R93) and the S-box (R94, R95) -/

/-- The inverse of R94's affine map: add 0x63, then the xor of three rotations. -/
def sboxAffineInv (z : Byte) : Byte :=
  let y := z ^^^ 0x63
  y.rotateLeft 1 ^^^ y.rotateLeft 3 ^^^ y.rotateLeft 6

theorem sboxAffine_sboxAffineInv : ∀ z : Byte, sboxAffine (sboxAffineInv z) = z := by
  decide +kernel

/-- The table holds a multiplicative inverse of every non-zero byte, under the affine map (R94). -/
theorem gmul_sboxAffineInv_sbox : ∀ b : Byte, b ≠ 0 → gmul b (sboxAffineInv (sbox b)) = 1#8 := by
  decide +kernel

theorem eq_of_gmul_eq_one {a x y : Byte} (hx : gmul a x = 1#8) (hy : gmul a y = 1#8) : x = y := by
  calc x = gmul (gmul a y) x := by rw [hy, one_gmul]
    _ = gmul y (gmul a x) := by rw [gmul_comm a y, gmul_assoc]
    _ = y := by rw [hx, gmul_one]

/-- The search of `ginv` finds an inverse wherever there is one. -/
theorem gmul_ginv {a x : Byte} (ha : a ≠ 0) (hx : gmul a x = 1#8) : gmul a (ginv a) = 1#8 := by
  rw [ginv, if_neg ha]
  cases hfind : ((List.range 256).map (BitVec.ofNat 8)).find? fun x => gmul a x = 0x01 with
  | some y => simpa using List.find?_some hfind
  | none =>
    have hmem : x ∈ (List.range 256).map (BitVec.ofNat 8) :=
      List.mem_map.2 ⟨x.toNat, List.mem_range.2 x.isLt, by simp⟩
    simpa [hx] using List.find?_eq_none.1 hfind x hmem

theorem gmul_eq_one_iff {a : Byte} (ha : a ≠ 0) (x : Byte) : gmul a x = 1#8 ↔ x = ginv a := by
  have hinv : gmul a (ginv a) = 1#8 := gmul_ginv ha (gmul_sboxAffineInv_sbox a ha)
  exact ⟨fun hx => eq_of_gmul_eq_one hx hinv, fun hx => hx ▸ hinv⟩

/-- Settles O50: an inverse exists, the search finds it, and associativity makes it the only one (R93). -/
theorem ginvIsTheInverse : Obligations.GinvIsTheInverse :=
  ⟨fun _ x ha => gmul_eq_one_iff ha x, rfl, ((gmul_eq_one_iff (by decide) _).1 (by decide)).symm,
    ((gmul_eq_one_iff (by decide) _).1 (by decide)).symm⟩

/-- R94's definition of the S-box gives the printed table. -/
theorem sbox_eq_sboxAffine_ginv (b : Byte) : sbox b = sboxAffine (ginv b) := by
  by_cases hb : b = 0
  · subst hb
    decide
  · rw [← (gmul_eq_one_iff hb _).1 (gmul_sboxAffineInv_sbox b hb), sboxAffine_sboxAffineInv]

theorem sboxAffine_getLsbD (y : Byte) {i : Nat} (hi : i < 8) :
    (sboxAffine y).getLsbD i =
      (y.getLsbD i ^^ y.getLsbD ((i + 4) % 8) ^^ y.getLsbD ((i + 5) % 8) ^^ y.getLsbD ((i + 6) % 8) ^^
        y.getLsbD ((i + 7) % 8) ^^ (0x63#8).getLsbD i) := by
  refine BitVec.getLsbD_ofBoolListLE.trans ?_
  simp [hi, Nat.mod_eq_of_lt hi]

theorem sbox_ne : ∀ b : Byte, sbox b ≠ b ∧ sbox b ≠ b ^^^ 0xFF := by
  decide +kernel

/-- Settles O51: the table is the affine map of the inverse, and the affine map's bits are R94's. -/
theorem sboxIsTheAffineMapOfTheInverse : Obligations.SboxIsTheAffineMapOfTheInverse := by
  refine ⟨fun b i hi => ?_, by decide, by decide, fun b => (sbox_ne b).1, fun b => (sbox_ne b).2⟩
  rw [sbox_eq_sboxAffine_ginv, sboxAffine_getLsbD _ hi]

@[simp] theorem invSbox_sbox : ∀ b : Byte, invSbox (sbox b) = b := by
  decide +kernel

@[simp] theorem sbox_invSbox : ∀ b : Byte, sbox (invSbox b) = b := by
  decide +kernel

/-- Settles O52: the two tables undo each other, entry by entry (R95). -/
theorem invSboxIsTheInversePermutation : Obligations.InvSboxIsTheInversePermutation :=
  ⟨invSbox_sbox, sbox_invSbox, by decide, by decide, by decide⟩

/-! ### ShiftRows (R98, R99) -/

@[simp] theorem invShiftRows_shiftRows (b : Block) : invShiftRows (shiftRows b) = b := rfl

theorem shiftRows_byte (b : Block) (row col : Fin 4) :
    (shiftRows b).byte (row.val + 4 * col.val) = b.byte (row.val + 4 * ((col.val + row.val) % 4)) := by
  fin_cases row <;> fin_cases col <;> rfl

theorem invShiftRows_byte (b : Block) (row col : Fin 4) :
    (invShiftRows b).byte (row.val + 4 * col.val) = b.byte (row.val + 4 * ((col.val + 4 - row.val) % 4)) := by
  fin_cases row <;> fin_cases col <;> rfl

/-- Settles O53: the two rotations, read at each of the sixteen places (R98, R99). -/
theorem shiftRowsByIndex : Obligations.ShiftRowsByIndex :=
  fun b row col => ⟨invShiftRows_shiftRows b, shiftRows_byte b row col, invShiftRows_byte b row col⟩

/-! ### MixColumns (R100 to R102) -/

/-- The product of two columns as polynomials over the field, modulo `x^4 + 1`: byte `r` is the sum of the products
`a_j p_i` with `(i + j) mod 4 = r`. -/
def colMul (a p : Col) : Col where
  b0 := gmul a.b0 p.b0 ^^^ gmul a.b1 p.b3 ^^^ gmul a.b2 p.b2 ^^^ gmul a.b3 p.b1
  b1 := gmul a.b0 p.b1 ^^^ gmul a.b1 p.b0 ^^^ gmul a.b2 p.b3 ^^^ gmul a.b3 p.b2
  b2 := gmul a.b0 p.b2 ^^^ gmul a.b1 p.b1 ^^^ gmul a.b2 p.b0 ^^^ gmul a.b3 p.b3
  b3 := gmul a.b0 p.b3 ^^^ gmul a.b1 p.b2 ^^^ gmul a.b2 p.b1 ^^^ gmul a.b3 p.b0

/-- The polynomial of MixColumns (R100). -/
def mixPoly : Col := ⟨0x02, 0x01, 0x01, 0x03⟩

/-- The polynomial of InvMixColumns (R101). -/
def invMixPoly : Col := ⟨0x0E, 0x09, 0x0D, 0x0B⟩

theorem mixColumn_eq_colMul (a : Col) : mixColumn a = colMul a mixPoly := by
  simp [mixColumn, colMul, mixPoly]

theorem invMixColumn_eq_colMul (a : Col) : invMixColumn a = colMul a invMixPoly := rfl

/-- The column product is additive in its first factor. -/
theorem colMul_xor_left (a b p : Col) : colMul (a.xor b) p = (colMul a p).xor (colMul b p) := by
  simp only [colMul, Col.xor, gmul_xor_left, Col.mk.injEq]
  refine ⟨?_, ?_, ?_, ?_⟩ <;> ac_rfl

theorem colMul_assoc (a p q : Col) : colMul (colMul a p) q = colMul a (colMul p q) := by
  simp only [colMul, gmul_xor_left, gmul_xor_right, gmul_assoc, Col.mk.injEq]
  refine ⟨?_, ?_, ?_, ?_⟩ <;> ac_rfl

theorem colMul_one (a : Col) : colMul a ⟨1#8, 0#8, 0#8, 0#8⟩ = a := by
  simp [colMul]

theorem mixPoly_colMul_invMixPoly : colMul mixPoly invMixPoly = ⟨1#8, 0#8, 0#8, 0#8⟩ := by decide

theorem invMixPoly_colMul_mixPoly : colMul invMixPoly mixPoly = ⟨1#8, 0#8, 0#8, 0#8⟩ := by decide

theorem mixColumns_xor (a b : Block) : mixColumns (a.xor b) = (mixColumns a).xor (mixColumns b) := by
  simp only [mixColumns, Block.xor, mixColumn_eq_colMul, colMul_xor_left]

theorem invMixColumns_xor (a b : Block) : invMixColumns (a.xor b) = (invMixColumns a).xor (invMixColumns b) := by
  simp only [invMixColumns, Block.xor, invMixColumn_eq_colMul, colMul_xor_left]

/-- Settles O54: each column is multiplied by a fixed polynomial, and the product is additive (R102). -/
theorem mixColumnsAreLinear : Obligations.MixColumnsAreLinear := ⟨invMixColumns_xor, mixColumns_xor⟩

@[simp] theorem invMixColumns_mixColumns (b : Block) : invMixColumns (mixColumns b) = b := by
  simp only [mixColumns, invMixColumns, mixColumn_eq_colMul, invMixColumn_eq_colMul, colMul_assoc, mixPoly_colMul_invMixPoly,
    colMul_one]

@[simp] theorem mixColumns_invMixColumns (b : Block) : mixColumns (invMixColumns b) = b := by
  simp only [mixColumns, invMixColumns, mixColumn_eq_colMul, invMixColumn_eq_colMul, colMul_assoc, invMixPoly_colMul_mixPoly,
    colMul_one]

/-! ### The inverse laws of the rounds (R104, R105, R108) -/

@[simp] theorem invSubBytes_subBytes (b : Block) : invSubBytes (subBytes b) = b := by
  simp only [invSubBytes, subBytes, Block.map_map, invSbox_sbox]
  rfl

theorem invSubBytes_invShiftRows (b : Block) : invSubBytes (invShiftRows b) = invShiftRows (invSubBytes b) := rfl

@[simp] theorem aesRound_xor_key (s k : Block) : (aesRound s k).xor k = mixColumns (shiftRows (subBytes s)) :=
  Block.xor_xor_cancel _ k

@[simp] theorem aesFinalRound_xor_key (s k : Block) : (aesFinalRound s k).xor k = shiftRows (subBytes s) :=
  Block.xor_xor_cancel _ k

/-- Settles O55: the key cancels, and the transforms are undone from the outside in (R108). -/
theorem roundInverseLaws : Obligations.RoundInverseLaws :=
  ⟨fun s => ⟨invSubBytes_subBytes s, invShiftRows_shiftRows s, invMixColumns_mixColumns s, mixColumns_invMixColumns s,
      invSubBytes_invShiftRows s⟩,
    fun s k => by simp, invMixColumns_xor, fun s k => by simp⟩

end Sys2Proof.Machine

/-! The key schedule: KEYLOAD's one error, the slots it leaves, and how long a loaded key stays loaded (41_key_schedule.md R121 to
R128). -/

namespace Sys2Proof.Machine

/-! ### What KEYLOAD leaves -/

/-- A KEYLOAD that executes normally leaves the tag AES128 and the schedule of the 16 bytes at KEY_ADDR (R125). -/
theorem execKeyload_key {s : State} (h : s.KeyLaunch) :
    ∃ t, exec .keyload s = .next t ∧ t.kvar = .aes128 ∧ t.rk = keySchedule (s.mem.readBlock s.keyAddr) := by
  refine ⟨_, execKeyload_of_launch h, ?_, ?_⟩
  · rw [State.complete_kvar, State.forgetRound_kvar, State.storeSchedule_kvar]
  · rw [State.complete_rk, State.forgetRound_rk, State.storeSchedule_rk]

/-- A KEYLOAD that ends with ERR clear executed normally (R121, R166). -/
theorem keyLaunch_of_execKeyload {s t : State} (h : exec .keyload s = .next t) (herr : t.err = false) : s.KeyLaunch := by
  rcases execKeyload_cases h with ⟨-, hout⟩ | ⟨-, -, r, hout⟩ | ⟨hlaunch, -⟩
  · rw [Host.Outcome.next.inj hout, State.failed_err] at herr
    cases herr
  · cases hout
  · exact hlaunch

/-- Settles O16: the length is KEYLOAD's one check, and a load that passes it completes (R121). -/
theorem keyloadOfAnotherLength : Obligations.KeyloadOfAnotherLength := by
  refine ⟨fun s hlen => ?_, fun s t hlen h => ?_⟩
  · rcases execKeyload_cases (s := s) rfl with ⟨-, hout⟩ | ⟨heq, -⟩ | ⟨⟨heq, -⟩, -⟩
    · exact hout
    · exact absurd heq hlen
    · exact absurd heq hlen
  · rcases execKeyload_cases h with ⟨hne, -⟩ | ⟨-, -, r, hout⟩ | ⟨-, hout⟩
    · exact absurd hlen hne
    · cases hout
    · rw [Host.Outcome.next.inj hout, State.complete_err]

/-! ### The slots -/

/-- The encryption region holds the forward keys (R124). -/
theorem scheduleSlot_of_le (n : Nat → Block) {i : Nat} (hi : i ≤ 10) : scheduleSlot n i = n i := if_pos hi

/-- The decryption region begins with the last forward key (R124). -/
theorem scheduleSlot_eleven (n : Nat → Block) : scheduleSlot n 11 = n 10 := rfl

/-- The decryption region ends with the raw key (R124). -/
theorem scheduleSlot_twentyOne (n : Nat → Block) : scheduleSlot n 21 = n 0 := rfl

/-- Between them stand the transformed keys, last first (R124). -/
theorem scheduleSlot_sub (n : Nat → Block) {r : Nat} (hpos : 1 ≤ r) (hle : r ≤ 9) :
    scheduleSlot n (21 - r) = invMixColumns (n r) := by
  unfold scheduleSlot
  rw [if_neg (by omega), if_neg (by omega), if_neg (by omega), Nat.sub_sub_self (by omega)]

/-- One round of the expansion, word by word (R123). -/
theorem expandRound_words (p : Block) (rc : Byte) :
    (expandRound p rc).c0 = p.c0.xor ⟨sbox p.c3.b1 ^^^ rc, sbox p.c3.b2, sbox p.c3.b3, sbox p.c3.b0⟩ ∧
    (expandRound p rc).c1 = p.c1.xor (expandRound p rc).c0 ∧ (expandRound p rc).c2 = p.c2.xor (expandRound p rc).c1 ∧
    (expandRound p rc).c3 = p.c3.xor (expandRound p rc).c2 :=
  ⟨rfl, rfl, rfl, rfl⟩

/-- Settles O18: each slot is read off the schedule of the key bytes, region by region (R122, R123, R124). -/
theorem keyloadSlotByRecurrence : Obligations.KeyloadSlotByRecurrence := by
  intro s hlaunch
  obtain ⟨t, hexec, -, hrk⟩ := execKeyload_key hlaunch
  have hslot := State.slot_of_rk hrk
  refine ⟨t, hexec, fun j hj => ?_, fun r hr => ?_, ?_, ?_, fun r hpos hle => ?_⟩
  · rw [hslot]
    exact Memory.byte_readBlock s.mem s.keyAddr hj
  · simp only [hslot]
    rw [scheduleSlot_of_le _ (show r ≤ 10 by omega), scheduleSlot_of_le _ (show r + 1 ≤ 10 by omega)]
    exact expandRound_words _ (rcon r)
  · rw [hslot, hslot]
    exact scheduleSlot_eleven _
  · rw [hslot, hslot]
    exact scheduleSlot_twentyOne _
  · rw [hslot, hslot, scheduleSlot_sub _ hpos hle, scheduleSlot_of_le _ (show r ≤ 10 by omega)]

/-- Settles O20: the store is the schedule of a block that is made of the key bytes alone (R128). -/
theorem keyloadIsAFunctionOfTheKeyBytes : Obligations.KeyloadIsAFunctionOfTheKeyBytes := by
  intro s₁ s₂ hlaunch₁ hlaunch₂ hbytes
  obtain ⟨t₁, hexec₁, -, hrk₁⟩ := execKeyload_key hlaunch₁
  obtain ⟨t₂, hexec₂, -, hrk₂⟩ := execKeyload_key hlaunch₂
  have hkey : s₁.mem.readBlock s₁.keyAddr = s₂.mem.readBlock s₂.keyAddr := Block.ofFn_congr hbytes
  exact ⟨t₁, t₂, hexec₁, hexec₂, by rw [hrk₁, hrk₂, hkey]⟩

/-! ### The tag -/

/-- A write of a register, CMD included, leaves the tag alone (R24). -/
@[simp] theorem State.writeReg_kvar (s : State) (r : Reg) (v : Word) : (s.writeReg r v).kvar = s.kvar := by
  cases r <;> rfl

/-- A CMD write leaves the tag alone unless it is a KEYLOAD that succeeds or a KEYDISCARD (R24). -/
theorem runCommand_kvar {w : Word} {s t : State} (h : runCommand w s = .next t) :
    t.kvar = s.kvar ∨ (t.kvar = .aes128 ∧ w = encode .keyload ∧ t.err = false) ∨
      (t.kvar = .none ∧ w = encode .keydiscard) := by
  rcases runCommand_cases h with ⟨e, -, rfl⟩ | ⟨hw, -, rfl⟩ | ⟨-, -, rfl⟩ | ⟨-, -, rfl⟩ | ⟨hw, rfl⟩
  · exact .inl rfl
  · right; left
    refine ⟨?_, eq_encode_of_decode hw, State.complete_err _⟩
    rw [State.complete_kvar, State.forgetRound_kvar, State.storeSchedule_kvar]
  · left; simp only [State.complete_kvar, State.forgetWork_kvar, State.kvar_encrypt]
  · left; simp only [State.complete_kvar, State.forgetLcb_kvar, State.forgetWork_kvar, State.kvar_decrypt]
  · right; right
    refine ⟨?_, eq_encode_of_decode hw⟩
    rw [State.complete_kvar, State.forgetStore_kvar, State.dropKey_kvar]

/-- Of the operations a step can perform, only a KEYLOAD that succeeds sets the tag, and only KEYDISCARD and reset clear it
(R24). -/
theorem step_kvar {s t : State} {op : HostOp} {rest : List HostOp} (hp : s.pending = op :: rest) (hstep : step s = .next t) :
    t.kvar = s.kvar ∨ (t.kvar = .aes128 ∧ op = .wr .cmd (encode .keyload) ∧ t.err = false) ∨
      (t.kvar = .none ∧ (op = .wr .cmd (encode .keydiscard) ∨ op = .reset ∨ ∃ w, op = .commandCutByReset w)) := by
  rw [step_cons hp] at hstep
  rcases hostStep_cases hstep with ⟨w, rfl, hrun⟩ | ⟨r, v, -, -, rfl⟩ | ⟨-, rfl⟩ | ⟨-, d, c, rfl⟩ | ⟨a, v, -, rfl⟩ |
    ⟨hop, rfl⟩ | ⟨w, u, hop, -, rfl⟩
  · rcases runCommand_kvar hrun with hsame | ⟨htag, rfl, herr⟩ | ⟨htag, rfl⟩
    · exact .inl hsame
    · exact .inr (.inl ⟨htag, rfl, herr⟩)
    · exact .inr (.inr ⟨htag, .inl rfl⟩)
  · exact .inl (State.writeReg_kvar _ r v)
  · exact .inl rfl
  · exact .inl rfl
  · exact .inl rfl
  · exact .inr (.inr ⟨State.resetEvent_kvar _, .inr (.inl hop)⟩)
  · exact .inr (.inr ⟨State.resetEvent_kvar _, .inr (.inr ⟨w, hop⟩)⟩)

/-! ### A loaded key -/

/-- A key is loaded exactly where the tag says so and the store is the key's schedule (R127). -/
theorem State.keyOK_iff {k : Block} {s : State} : s.KeyOK k ↔ s.kvar = .aes128 ∧ s.rk = keySchedule k := by
  refine ⟨fun h => ⟨?_, State.rk_of_keyOK h⟩, fun ⟨htag, hrk⟩ => State.keyOK_of_rk htag hrk⟩
  obtain ⟨htag, -⟩ := h
  exact htag

/-- A successful KEYLOAD loads the 16 bytes at KEY_ADDR (R127). -/
theorem keyOK_of_execKeyload {s t : State} (h : exec .keyload s = .next t) (herr : t.err = false) :
    t.KeyOK (s.mem.readBlock s.keyAddr) := by
  obtain ⟨u, hexec, hkey⟩ := execKeyload_key (keyLaunch_of_execKeyload h herr)
  obtain rfl := Host.Outcome.next.inj (h.symm.trans hexec)
  exact State.keyOK_iff.2 hkey

/-- With no operation pending a step changes nothing (R37). -/
theorem step_nil {s : State} (h : s.pending = []) : step s = .next s := by
  unfold step
  rw [h]

/-- Settles O39: a loaded key is the tag and the store, and outside the operations named a step changes neither (R23, R24, R127). -/
theorem loadedKeyStaysLoaded : Obligations.LoadedKeyStaysLoaded := by
  refine ⟨fun s t => keyOK_of_execKeyload, fun s t k hkey hstep => ?_⟩
  cases hp : s.pending with
  | nil =>
    obtain rfl := Host.Outcome.next.inj ((step_nil hp).symm.trans hstep)
    exact .inl hkey
  | cons op rest =>
    by_cases hrk : t.rk = s.rk
    · obtain ⟨htag, hstore⟩ := State.keyOK_iff.1 hkey
      rcases step_kvar hp hstep with hsame | ⟨-, hload, herr⟩ | ⟨-, hend⟩
      · exact .inl (State.keyOK_iff.2 ⟨hsame.trans htag, hrk.trans hstore⟩)
      · exact .inr ⟨op, rest, rfl, .inl ⟨hload, herr⟩⟩
      · exact .inr ⟨op, rest, rfl, .inr hend⟩
    · exact .inr ⟨op, rest, rfl, storeIsImmutable s t op rest hp hstep hrk⟩

end Sys2Proof.Machine

/-! The precondition checks of ENCRYPT and DECRYPT: which one is reported, and what reporting it changes (60_exceptions.md R164,
R166). -/

namespace Sys2Proof.Machine

/-! ### The check that is reported -/

section

variable {o : CipherOperands} {k : KVar}

theorem CipherOperands.check_of_srcLen_eq_zero (hzero : o.srcLen = 0) : o.check k = some ⟨.emptyInput, .src, 0⟩ :=
  if_pos hzero

variable (hsrc : o.srcLen ≠ 0)
include hsrc

theorem CipherOperands.check_of_src_misaligned (hmis : o.srcLen % 16 ≠ 0) :
    o.check k = some ⟨.blockAlignment, .src, 16⟩ := by
  rw [CipherOperands.check, if_neg hsrc, if_pos hmis]

variable (hsrc16 : o.srcLen % 16 = 0)
include hsrc16

theorem CipherOperands.check_of_dst_misaligned (hmis : o.dstLen % 16 ≠ 0) :
    o.check k = some ⟨.blockAlignment, .dst, 16⟩ := by
  rw [CipherOperands.check, if_neg hsrc, if_neg (not_not.2 hsrc16), if_pos hmis]

variable (hdst16 : o.dstLen % 16 = 0)
include hdst16

theorem CipherOperands.check_of_ivLen_ne (hne : o.ivLen ≠ 16) : o.check k = some ⟨.emptyInput, .iv, 0⟩ := by
  rw [CipherOperands.check, if_neg hsrc, if_neg (not_not.2 hsrc16), if_neg (not_not.2 hdst16), if_pos hne]

variable (hiv : o.ivLen = 16)
include hiv

theorem CipherOperands.check_of_dst_too_small (hlt : o.dstLen < o.srcLen) :
    o.check k = some ⟨.bufferTooSmall, .dst, 0⟩ := by
  rw [CipherOperands.check, if_neg hsrc, if_neg (not_not.2 hsrc16), if_neg (not_not.2 hdst16), if_neg (not_not.2 hiv),
    if_pos hlt]

theorem CipherOperands.check_of_no_key (hle : o.srcLen ≤ o.dstLen) (hkey : k ≠ .aes128) :
    o.check k = some ⟨.unsupportedOperation, .none, 0⟩ := by
  rw [CipherOperands.check, if_neg hsrc, if_neg (not_not.2 hsrc16), if_neg (not_not.2 hdst16), if_neg (not_not.2 hiv),
    if_neg (not_lt.2 hle), if_pos hkey]

end

/-! ### What reporting it changes -/

/-- A check that fails ends either cipher at once: STATUS and ERRINFO report it and nothing else changes (R164, R166). -/
theorem runCipher_of_check {body : CipherOperands → State → State} {forget : State → State} {s : State} {e : CommandError}
    (he : s.cipherOperands.check s.kvar = some e) : runCipher body forget s = .next (s.failed e.errInfo) := by
  simp only [runCipher, he, State.raise_eq]

/-- ENCRYPT and DECRYPT report a failed check alike (R164, R166). -/
theorem exec_cipher_of_check {i : Instr} (hi : i = .encrypt ∨ i = .decrypt) {s : State} {e : CommandError}
    (he : s.cipherOperands.check s.kvar = some e) : exec i s = .next (s.failed e.errInfo) := by
  rcases hi with rfl | rfl
  · rw [exec_encrypt, runCipher_of_check he]
  · rw [exec_decrypt, runCipher_of_check he]

/-- Settles O22: the checks in the order of R164, each reported where those before it pass. -/
theorem cipherCheckOrder : Obligations.CipherCheckOrder := by
  intro s i hi
  refine ⟨fun hzero => ?srcEmpty, fun hsrc => ⟨fun hmis => ?srcMisaligned, fun hsrc16 => ⟨fun hmis => ?dstMisaligned,
    fun hdst16 => ⟨fun hne => ?ivLength, fun hiv => ⟨fun hlt => ?dstTooSmall, fun hle hkey => ?noKey⟩⟩⟩⟩⟩
  case srcEmpty => exact exec_cipher_of_check hi (CipherOperands.check_of_srcLen_eq_zero hzero)
  case srcMisaligned => exact exec_cipher_of_check hi (CipherOperands.check_of_src_misaligned hsrc hmis)
  case dstMisaligned => exact exec_cipher_of_check hi (CipherOperands.check_of_dst_misaligned hsrc hsrc16 hmis)
  case ivLength => exact exec_cipher_of_check hi (CipherOperands.check_of_ivLen_ne hsrc hsrc16 hdst16 hne)
  case dstTooSmall => exact exec_cipher_of_check hi (CipherOperands.check_of_dst_too_small hsrc hsrc16 hdst16 hiv hlt)
  case noKey => exact exec_cipher_of_check hi (CipherOperands.check_of_no_key hsrc hsrc16 hdst16 hiv hle hkey)

end Sys2Proof.Machine

/-! Reset during a command: the engine's registers take their reset values, and the bytes of the command's DST range are old or new
(70_reset_and_hazards.md R191, R192). -/

namespace Sys2Proof.Machine

/-- Every host register reads 0 after the reset event, KEYVAR included (R37, R191). -/
@[simp] theorem State.resetEvent_regValue (s : State) (r : Reg) : s.resetEvent.regValue r = 0 := by
  cases r <;> rfl

/-- A cut leaves each byte of memory, inside its range or outside, at its old or its new value (R192). -/
theorem Memory.read_cut {old : Memory} (h : old.wf = true) (new : Memory) (a n free x : Nat) :
    (Memory.cut old new a n free).read x = old.read x ∨ (Memory.cut old new a n free).read x = new.read x := by
  by_cases hx : a ≤ x ∧ x < a + n
  · obtain ⟨j, rfl⟩ := Nat.exists_eq_add_of_le hx.1
    exact Memory.read_cut_of_inside h new a free (Nat.lt_of_add_lt_add_left hx.2)
  · exact .inl (Memory.read_cut_of_outside old new (by omega))

/-- What a reset cuts lies within DSTW, whose length is `SRC_LEN` (R59). -/
theorem cutSpan_le (w : Word) (s : State) : cutSpan w s ≤ s.srcLen := by
  have hcipher : (if (s.cipherOperands.check s.kvar).isNone then s.srcLen else 0) ≤ s.srcLen := by
    split
    · exact le_rfl
    · exact Nat.zero_le _
  unfold cutSpan
  split
  · exact hcipher
  · exact hcipher
  · exact Nat.zero_le _
  · exact Nat.zero_le _
  · exact Nat.zero_le _

/-- Where the command alone would have gone on, the operation that cuts it is a reset event from cut memory (R192). -/
theorem hostStep_commandCutByReset {w : Word} {s u : State} (h : runCommand w s = .next u) :
    hostStep (.commandCutByReset w) s = .next { s with
      mem := Memory.cut s.mem u.mem s.dstAddr (cutSpan w s) (s.freeCount + 1)
      accesses := u.accesses.take (s.accesses.length + Config.freeNat s.freeCount)
      freeCount := s.freeCount + 1 + cutSpan w s }.resetEvent := by
  simp only [hostStep, runCutByReset, h]

/-- Settles O15: the step is the reset event from memory cut within the `SRC_LEN` bytes from `DST_ADDR` (R191, R192). -/
theorem resetDuringCommand : Obligations.ResetDuringCommand := by
  intro s u w rest hwf hp hrun
  refine ⟨_, (step_cons hp).trans (hostStep_commandCutByReset hrun), State.resetEvent_kvar _, State.resetEvent_regValue _,
    State.resetEvent_pending _, fun a => ?oldOrNew, fun a hout => ?outside⟩
  case oldOrNew =>
    rw [State.resetEvent_mem]
    exact Memory.read_cut hwf u.mem ..
  case outside =>
    rw [State.resetEvent_mem]
    have hspan : cutSpan w { s with pending := rest } ≤ s.srcLen := cutSpan_le ..
    exact Memory.read_cut_of_outside s.mem u.mem (hout.imp_right (Nat.add_le_add_left hspan s.dstAddr).trans)

end Sys2Proof.Machine

/-! What a command can end in, and what no command writes: CMD, the operand registers, the host's side, AW and the memory map
(10_state.md R29, R34; 30_encoding.md R77; 60_exceptions.md R166, R167). -/

namespace Sys2Proof.Machine

/-! ### How a command ends -/

/-- Everything a command can do when the machine goes on: fail with one of the eight values and no other effect, or run whole
(R77, R166, R171). -/
theorem exec_cases {i : Instr} {s t : State} (h : exec i s = .next t) :
    (∃ e ∈ errInfoValues, t = s.failed e) ∨
    (i = .keyload ∧ s.KeyLaunch ∧
      t = ((s.memRead s.keyAddr).2.storeSchedule (keySchedule (s.mem.readBlock s.keyAddr))).forgetRound.complete) ∨
    (i = .encrypt ∧ s.CipherLaunch ∧
      t = ((State.encryptStep s.cipherOperands)^[s.blockCount] (s.loadIv s.cipherOperands)).forgetWork.complete) ∨
    (i = .decrypt ∧ s.CipherLaunch ∧
      t = ((State.decryptStep s.cipherOperands)^[s.blockCount]
        (s.loadIv s.cipherOperands)).forgetWork.forgetLcb.complete) ∨
    (i = .keydiscard ∧ t = s.dropKey.forgetStore.complete) := by
  cases i with
  | keyload =>
    rcases execKeyload_cases h with ⟨-, hout⟩ | ⟨-, -, r, hout⟩ | ⟨hlaunch, hout⟩
    · exact .inl ⟨0x11, by decide, Host.Outcome.next.inj hout⟩
    · cases hout
    · exact .inr (.inl ⟨rfl, hlaunch, Host.Outcome.next.inj hout⟩)
  | encrypt =>
    rcases runCipher_cases ((exec_encrypt s).symm.trans h) with ⟨-, e, -, he, hout⟩ | ⟨-, -, -, r, hout⟩ | ⟨hlaunch, hout⟩
    · exact .inl ⟨e.errInfo, he, Host.Outcome.next.inj hout⟩
    · cases hout
    · exact .inr (.inr (.inl ⟨rfl, hlaunch, Host.Outcome.next.inj hout⟩))
  | decrypt =>
    rcases runCipher_cases ((exec_decrypt s).symm.trans h) with ⟨-, e, -, he, hout⟩ | ⟨-, -, -, r, hout⟩ | ⟨hlaunch, hout⟩
    · exact .inl ⟨e.errInfo, he, Host.Outcome.next.inj hout⟩
    · cases hout
    · exact .inr (.inr (.inr (.inl ⟨rfl, hlaunch, Host.Outcome.next.inj hout⟩)))
  | keydiscard => exact .inr (.inr (.inr (.inr ⟨rfl, (Host.Outcome.next.inj h).symm⟩)))

/-- A command fails with one of the eight values, or completes (R163, R166, R167). -/
theorem exec_ends {i : Instr} {s t : State} (h : exec i s = .next t) :
    (∃ e ∈ errInfoValues, t = s.failed e) ∨ ∃ u : State, t = u.complete := by
  rcases exec_cases h with hfail | ⟨-, -, ht⟩ | ⟨-, -, ht⟩ | ⟨-, -, ht⟩ | ⟨-, ht⟩
  · exact .inl hfail
  · exact .inr ⟨_, ht⟩
  · exact .inr ⟨_, ht⟩
  · exact .inr ⟨_, ht⟩
  · exact .inr ⟨_, ht⟩

/-- A CMD write that goes on ran the command its word encodes, or raised IllegalCommand (R74, R77). -/
theorem runCommand_next {w : Word} {s t : State} (h : runCommand w s = .next t) :
    (∃ i, w = encode i ∧ exec i { s with cmd := w } = .next t) ∨ t = { s with cmd := w }.failed 0x7 := by
  cases hdecode : decode w with
  | ok i =>
    simp only [runCommand, hdecode] at h
    exact .inl ⟨i, eq_encode_of_decode hdecode, h⟩
  | error e => exact .inr (Host.Outcome.next.inj (h.symm.trans (runCommand_of_decode_error hdecode s)))

/-- A CMD write ends as a command does (R163, R166, R167). -/
theorem runCommand_ends {w : Word} {s t : State} (h : runCommand w s = .next t) :
    (∃ e ∈ errInfoValues, t = { s with cmd := w }.failed e) ∨ ∃ u : State, t = u.complete := by
  rcases runCommand_next h with ⟨i, -, hexec⟩ | ht
  · exact exec_ends hexec
  · exact .inl ⟨0x7, by decide, ht⟩

/-! ### What no command writes -/

/-- The state without what a command can write: CMD, the operand registers, the queue, the last read, AW and the memory map are
what is left (R29, R34). -/
def State.interface (s : State) : State :=
  { s.outsideLoop with rk := State.reset.rk, kvar := .none, status := 0, errInfo := 0, freeCount := 0 }

/-- What leaves everything but the loop's registers alone leaves the interface alone. -/
theorem State.interface_of_outsideLoop {s t : State} (h : t.outsideLoop = s.outsideLoop) : t.interface = s.interface := by
  rw [State.interface, h, ← State.interface]

section
variable (s : State)

@[simp] theorem State.interface_failed (e : Word) : (s.failed e).interface = s.interface := rfl
@[simp] theorem State.interface_complete : s.complete.interface = s.interface := rfl
@[simp] theorem State.interface_memRead (a : Nat) : (s.memRead a).2.interface = s.interface := rfl
@[simp] theorem State.interface_storeSchedule (rk : Vector Block 22) : (s.storeSchedule rk).interface = s.interface := rfl
@[simp] theorem State.interface_dropKey : s.dropKey.interface = s.interface := rfl
@[simp] theorem State.interface_forgetStore : s.forgetStore.interface = s.interface := by
  simp only [State.interface, State.outsideLoop, State.forgetStore]
@[simp] theorem State.interface_forgetRound : s.forgetRound.interface = s.interface := rfl
@[simp] theorem State.interface_forgetWork : s.forgetWork.interface = s.interface := rfl
@[simp] theorem State.interface_forgetLcb : s.forgetLcb.interface = s.interface := rfl

@[simp] theorem State.interface_encrypt (o : CipherOperands) (n : Nat) :
    ((State.encryptStep o)^[n] (s.loadIv o)).interface = s.interface :=
  State.interface_of_outsideLoop (State.outsideLoop_encrypt o n s)

@[simp] theorem State.interface_decrypt (o : CipherOperands) (n : Nat) :
    ((State.decryptStep o)^[n] (s.loadIv o)).interface = s.interface :=
  State.interface_of_outsideLoop (State.outsideLoop_decrypt o n s)

end

/-- No command writes the interface (R29, R34). -/
theorem exec_interface {i : Instr} {s t : State} (h : exec i s = .next t) : t.interface = s.interface := by
  rcases exec_cases h with ⟨e, -, rfl⟩ | ⟨-, -, rfl⟩ | ⟨-, -, rfl⟩ | ⟨-, -, rfl⟩ | ⟨-, rfl⟩ <;> simp

/-- A CMD write stores its word in CMD and leaves the rest of the interface (R28, R77). -/
theorem runCommand_interface {w : Word} {s t : State} (h : runCommand w s = .next t) :
    t.interface = { s with cmd := w }.interface := by
  rcases runCommand_next h with ⟨i, -, hexec⟩ | rfl
  · exact exec_interface hexec
  · simp

/-- Equal interfaces, register by register. -/
theorem State.sameInterface_of_interface {s t : State} (h : t.interface = s.interface) : s.SameInterface t :=
  ⟨(congrArg State.cmd h :), (congrArg State.keyAddr h :), (congrArg State.keyLen h :), (congrArg State.ivAddr h :),
    (congrArg State.ivLen h :), (congrArg State.srcAddr h :), (congrArg State.srcLen h :), (congrArg State.dstAddr h :),
    (congrArg State.dstLen h :), (congrArg State.pending h :), (congrArg State.readData h :)⟩

theorem State.aw_of_interface {s t : State} (h : t.interface = s.interface) : t.mem.aw = s.mem.aw :=
  (congrArg (fun u : State => u.mem.aw) h :)

theorem State.map_of_interface {s t : State} (h : t.interface = s.interface) : t.mem.map = s.mem.map :=
  (congrArg (fun u : State => u.mem.map) h :)

/-- Settles O12: CMD takes the word, and no command writes CMD (R28, R77). -/
theorem cmdHoldsTheWordWritten : Obligations.CmdHoldsTheWordWritten := by
  intro s t w rest hp hstep
  rw [step_cons hp, hostStep_wr, if_pos rfl] at hstep
  obtain ⟨hcmd, -⟩ := State.sameInterface_of_interface (runCommand_interface hstep)
  exact hcmd

end Sys2Proof.Machine

/-! The invariant of the machine: it holds at reset, and every command and every host operation keeps it (10_state.md R21, R26,
R29, R31; 41_key_schedule.md R127; 60_exceptions.md R163). -/

namespace Sys2Proof.Machine

/-! ### The four parts -/

/-- Without a key loaded nothing is asked of the store (R21). -/
theorem State.keyInv_of_none {s : State} (h : s.kvar = .none) : s.KeyInv := fun hk => by rw [h] at hk; cases hk

/-- A store that holds a key's schedule holds the schedule of its slot 0 (R122, R127). -/
theorem State.keyInv_of_rk {k : Block} {s : State} (h : s.rk = keySchedule k) : s.KeyInv := by
  intro hk
  rw [State.slot_of_rk h]
  exact State.keyOK_of_rk hk h

/-- What leaves the store and the tag alone keeps a loaded key (R127). -/
theorem State.KeyInv.congr {s t : State} (h : s.KeyInv) (hrk : t.rk = s.rk) (hk : t.kvar = s.kvar) : t.KeyInv := fun htag =>
  State.keyInv_of_rk (hrk.trans (State.rk_of_keyOK (h (hk ▸ htag)))) htag

theorem State.statusInv_failed (s : State) {e : Word} (he : e ∈ errInfoValues) : (s.failed e).StatusInv := .inr (.inr ⟨rfl, he⟩)

theorem State.statusInv_complete (s : State) : s.complete.StatusInv := .inr (.inl ⟨rfl, rfl⟩)

/-- The operand registers keep within AW where they and AW are unchanged (R26, R29). -/
theorem State.FitsAw.congr {s t : State} (h : s.FitsAw) (hsame : t.interface = s.interface)
    (hindex : t.seqI < 2 ^ (s.mem.aw - 4)) : t.FitsAw := by
  obtain ⟨-, hka, hkl, hia, hil, hsa, hsl, hda, hdl, -, -⟩ := State.sameInterface_of_interface hsame
  rw [State.fitsAw_iff] at h ⊢
  rw [State.aw_of_interface hsame, hka, hkl, hia, hil, hsa, hsl, hda, hdl]
  obtain ⟨h1, h2, h3, h4, h5, h6, h7, h8, -⟩ := h
  exact ⟨h1, h2, h3, h4, h5, h6, h7, h8, hindex⟩

/-! ### Commands -/

/-- A command keeps memory in canonical form. -/
theorem exec_wf {i : Instr} {s t : State} (h : exec i s = .next t) (hwf : s.mem.wf = true) : t.mem.wf = true := by
  rcases exec_cases h with ⟨e, -, rfl⟩ | ⟨-, -, rfl⟩ | ⟨-, -, rfl⟩ | ⟨-, -, rfl⟩ | ⟨-, rfl⟩
  · exact hwf
  · simpa using hwf
  · simpa using (loopTurn_encrypt _).wf_iterate s _ hwf
  · simpa using (loopTurn_decrypt _).wf_iterate s _ hwf
  · simpa using hwf

/-- A command leaves no half-loaded key (R21, R126, R127). -/
theorem exec_keyInv {i : Instr} {s t : State} (h : exec i s = .next t) (hkey : s.KeyInv) : t.KeyInv := by
  rcases exec_cases h with ⟨e, -, rfl⟩ | ⟨-, -, rfl⟩ | ⟨-, -, rfl⟩ | ⟨-, -, rfl⟩ | ⟨-, rfl⟩
  · exact hkey
  · exact State.keyInv_of_rk (k := s.mem.readBlock s.keyAddr) (by simp)
  · exact hkey.congr (by simp [State.rk_encrypt]) (by simp [State.kvar_encrypt])
  · exact hkey.congr (by simp [State.rk_decrypt]) (by simp [State.kvar_decrypt])
  · exact State.keyInv_of_none (by simp)

/-- A command leaves a legal pair in STATUS and ERRINFO (R163, R167). -/
theorem exec_statusInv {i : Instr} {s t : State} (h : exec i s = .next t) : t.StatusInv := by
  rcases exec_ends h with ⟨e, he, rfl⟩ | ⟨u, rfl⟩
  · exact s.statusInv_failed he
  · exact u.statusInv_complete

/-- A command keeps the block index or leaves it a free value of its width (R26). -/
theorem exec_seqI {i : Instr} {s t : State} (h : exec i s = .next t) : t.seqI = s.seqI ∨ ∃ n, t.seqI = freeIndex s.mem.aw n := by
  rcases exec_cases h with ⟨e, -, rfl⟩ | ⟨-, -, rfl⟩ | ⟨-, -, rfl⟩ | ⟨-, -, rfl⟩ | ⟨-, rfl⟩
  · exact .inl rfl
  · exact .inl (by simp)
  · right
    rw [State.complete_seqI, State.forgetWork_seqI, State.aw_of_interface (s.interface_encrypt _ _)]
    exact ⟨_, rfl⟩
  · right
    rw [State.complete_seqI, State.forgetLcb_seqI, State.forgetWork_seqI, State.aw_of_interface (s.interface_decrypt _ _)]
    exact ⟨_, rfl⟩
  · exact .inl (by simp)

/-- Every command keeps the invariant. -/
theorem exec_inv {i : Instr} {s t : State} (h : exec i s = .next t) (hinv : s.Inv) : t.Inv := by
  obtain ⟨hwf, hkey, -, hfits⟩ := hinv
  refine ⟨exec_wf h hwf, exec_keyInv h hkey, exec_statusInv h, hfits.congr (exec_interface h) ?_⟩
  rcases exec_seqI h with hseq | ⟨n, hseq⟩
  · rw [hseq]
    exact hfits.2
  · rw [hseq]
    exact freeIndex_lt ..

/-- The invariant does not speak of CMD. -/
theorem State.setCmd_inv {s : State} (w : Word) (hinv : s.Inv) : State.Inv { s with cmd := w } := by
  obtain ⟨hwf, hkey, hstatus, hfits⟩ := hinv
  exact ⟨hwf, hkey, hstatus, (State.fitsAw_iff _).2 ((State.fitsAw_iff s).1 hfits)⟩

/-- An error of the eight values keeps the invariant (R163, R166). -/
theorem State.failed_inv {s : State} {e : Word} (he : e ∈ errInfoValues) (hinv : s.Inv) : (s.failed e).Inv := by
  obtain ⟨hwf, hkey, -, hfits⟩ := hinv
  exact ⟨hwf, hkey, s.statusInv_failed he, (State.fitsAw_iff _).2 ((State.fitsAw_iff s).1 hfits)⟩

/-- Every CMD write keeps the invariant, that of an illegal word included. -/
theorem runCommand_inv {w : Word} {s t : State} (h : runCommand w s = .next t) (hinv : s.Inv) : t.Inv := by
  rcases runCommand_next h with ⟨i, -, hexec⟩ | rfl
  · exact exec_inv hexec (State.setCmd_inv w hinv)
  · exact State.failed_inv (by decide) (State.setCmd_inv w hinv)

/-! ### Host operations -/

/-- A register write keeps the invariant: an operand register takes its value within AW bits (R29). -/
theorem State.writeReg_inv {s : State} (r : Reg) (v : Word) (hinv : s.Inv) : (s.writeReg r v).Inv := by
  obtain ⟨hwf, hkey, hstatus, hfits⟩ := hinv
  have hv := s.operandValue_lt v
  rw [State.fitsAw_iff] at hfits
  cases r <;> exact ⟨hwf, hkey, hstatus, (State.fitsAw_iff _).2 (by simp_all [State.writeReg])⟩

/-- A byte store keeps the invariant: the map, AW and the registers stay. -/
theorem State.memWrite_byte_inv {s : State} (a : Nat) (v : Byte) (hinv : s.Inv) : State.Inv { s with mem := s.mem.write a v } := by
  obtain ⟨hwf, hkey, hstatus, hfits⟩ := hinv
  exact ⟨Memory.wf_write hwf a v, hkey, hstatus, hfits⟩

/-- The reset event establishes the invariant, whatever the state before held but memory (R37, R191). -/
theorem State.resetEvent_inv {s : State} (hwf : s.mem.wf = true) : s.resetEvent.Inv := by
  refine ⟨?_, State.keyInv_of_none (State.resetEvent_kvar s), .inl ⟨rfl, rfl⟩, (State.fitsAw_iff _).2 ?_⟩
  · rwa [State.resetEvent_mem]
  · simp [freeIndex_lt]

/-- Every host operation keeps the invariant. -/
theorem hostStep_inv {op : HostOp} {s t : State} (h : hostStep op s = .next t) (hinv : s.Inv) : t.Inv := by
  rcases hostStep_cases h with ⟨w, -, hrun⟩ | ⟨r, v, -, -, rfl⟩ | ⟨-, rfl⟩ | ⟨-, d, c, rfl⟩ | ⟨a, v, -, rfl⟩ | ⟨-, rfl⟩ |
    ⟨w, u, -, -, rfl⟩
  · exact runCommand_inv hrun hinv
  · exact State.writeReg_inv r v hinv
  · exact hinv
  · exact hinv
  · exact State.memWrite_byte_inv a v hinv
  · exact State.resetEvent_inv hinv.1
  · exact State.resetEvent_inv (Memory.wf_cut hinv.1 ..)

/-- Settles O37: a step performs one host operation or none, and each part of the invariant is kept by every one of them. -/
theorem stepKeepsTheInvariant : Obligations.StepKeepsTheInvariant := by
  intro s t hinv hstep
  cases hp : s.pending with
  | nil =>
    obtain rfl := Host.Outcome.next.inj ((step_nil hp).symm.trans hstep)
    exact hinv
  | cons op rest =>
    rw [step_cons hp] at hstep
    exact hostStep_inv hstep hinv

/-- Settles O36: nothing is listed in memory, no key is loaded, and every register is zero (R37). -/
theorem resetMeetsTheInvariant : Obligations.ResetMeetsTheInvariant :=
  ⟨State.reset_mem_wf, State.keyInv_of_none rfl, .inl ⟨rfl, rfl⟩, (State.fitsAw_iff _).2 (by decide)⟩

end Sys2Proof.Machine

/-! Dispatch and the host registers: the command a step runs, the values registers take and return, and the accesses that are
ignored or refused (10_state.md R27 to R38; 30_encoding.md R71 to R77). -/

namespace Sys2Proof.Machine

/-! ### Dispatch -/

/-- Settles O2: each command's word is sound, its decoding included (R71, R72). -/
theorem decodeOfEncode : Obligations.DecodeOfEncode := by
  intro i _
  obtain ⟨-, hlegal, -, -, hdecode, htable⟩ := encoding_statement i
  exact ⟨hdecode, htable, hlegal⟩

/-- A word with something in `RSV` is rejected by that name (R71, R74). -/
theorem decode_of_rsvField_ne {w : Word} (h : rsvField w ≠ 0) : decode w = .error .reservedBits := if_pos h

/-- Settles O3: four words are encodings, four have `RSV` bits set, and three have an `OPC` of no command (R72, R74). -/
theorem wordsOfTheSpecDecode : Obligations.WordsOfTheSpecDecode :=
  ⟨decode_encode .keyload, decode_encode .encrypt, decode_encode .decrypt, decode_encode .keydiscard, by decide, by decide,
    by decide, decode_of_rsvField_ne (by decide), decode_of_rsvField_ne (by decide), decode_of_rsvField_ne (by decide),
    decode_of_rsvField_ne (by decide)⟩

/-- A CMD write of a command's word runs the command with the word in CMD (R28, R77). -/
theorem runCommand_of_decode {w : Word} {i : Instr} (h : decode w = .ok i) (s : State) :
    runCommand w s = exec i { s with cmd := w } := by
  simp only [runCommand, h]
  rfl

/-- Settles O5: the step takes the CMD write off the queue and runs its command; `withFetchWord` puts one there (R77). -/
theorem stepRunsTheDecodedCommand : Obligations.StepRunsTheDecodedCommand := by
  have hrun : ∀ (s : State) (w : Word) (rest : List HostOp) (i : Instr), s.pending = .wr .cmd w :: rest →
      decode w = .ok i → step s = exec i { s with pending := rest, cmd := w } := by
    intro s w rest i hp hdecode
    rw [step_cons hp, hostStep_wr, if_pos rfl, runCommand_of_decode hdecode]
  refine ⟨hrun, fun s i => ?_⟩
  have hword : BitVec.ofNat 32 ((encode i).toNat % 2 ^ 32) = encode i := by
    rw [Nat.mod_eq_of_lt (encode i).isLt, BitVec.ofNat_toNat, BitVec.setWidth_eq]
  exact hrun (s.withFetchWord 32 (encode i).toNat) (encode i) s.pending i
    (by rw [State.withFetchWord, hword]) (decode_encode i)

/-- Settles O6: with an empty queue there is nothing to perform (R37). -/
theorem idleEngineKeepsItsState : Obligations.IdleEngineKeepsItsState := fun _ => step_nil

/-! ### Registers -/

/-- Settles O8: the step is a word read at the register's own offset (R39). -/
theorem registerRead : Obligations.RegisterRead := by
  intro s r rest hp
  rw [step_cons hp, hostStep_rd]
  rfl

/-- A write of a register other than CMD is one step (R39). -/
theorem step_wr {s : State} {r : Reg} {v : Word} {rest : List HostOp} (hp : s.pending = .wr r v :: rest) (hr : r ≠ .cmd) :
    step s = .next ({ s with pending := rest }.writeReg r v) := by
  rw [step_cons hp, hostStep_wr, if_neg hr]

/-- The operand registers are those that a write other than of CMD changes (R29). -/
theorem Reg.mem_operands {r : Reg} (h : r ∉ [Reg.cmd, Reg.status, Reg.errInfo, Reg.keyVar]) : r ∈ Reg.operands := by
  revert h
  cases r <;> decide

/-- An operand register takes the value written, as an AW-bit number (R29). -/
theorem State.regValue_writeReg_same (s : State) {r : Reg} (hr : r ∈ Reg.operands) (v : Word) :
    (s.writeReg r v).regValue r = s.operandValue v := by
  simp only [Reg.operands, List.mem_cons, List.not_mem_nil, or_false] at hr
  rcases hr with rfl | rfl | rfl | rfl | rfl | rfl | rfl | rfl <;> rfl

/-- A register write leaves the other registers alone (R29, R38). -/
theorem State.regValue_writeReg_ne (s : State) {r r' : Reg} (hne : r' ≠ r) (v : Word) :
    (s.writeReg r v).regValue r' = s.regValue r' := by
  cases r <;> cases r' <;> trivial

/-- A 32-bit value is read back whole where AW is 32 or more (R29). -/
theorem State.ofNat_operandValue {s : State} (h : 32 ≤ s.mem.aw) (v : Word) : BitVec.ofNat 32 (s.operandValue v) = v := by
  have hv : v.toNat < 2 ^ s.mem.aw := v.isLt.trans_le (Nat.pow_le_pow_right (by decide) h)
  rw [State.operandValue, Nat.mod_eq_of_lt hv, BitVec.ofNat_toNat, BitVec.setWidth_eq]

/-- Settles O7: the register written takes the value, and no other field moves but the queue (R29, R39). -/
theorem operandRegisterWrite : Obligations.OperandRegisterWrite := by
  intro s r v rest hr hp
  have hop := Reg.mem_operands hr
  have hcmd : r ≠ .cmd := fun h => hr (h ▸ List.mem_cons_self ..)
  have hvalue := State.regValue_writeReg_same { s with pending := rest } hop v
  refine ⟨_, step_wr hp hcmd, hvalue, fun haw => ?_, fun r' hne => ?_, ?_⟩
  · exact (congrArg (BitVec.ofNat 32) hvalue).trans (State.ofNat_operandValue (s := { s with pending := rest }) haw v)
  · rw [State.regValue_writeReg_ne _ hne]
    cases r' <;> rfl
  · cases r <;> exact ⟨rfl, rfl, rfl, rfl, rfl, rfl, rfl, rfl, rfl, rfl, rfl, rfl⟩

/-! ### Accesses that are ignored or refused -/

/-- A read-only register ignores writes (R38). -/
theorem State.writeReg_readOnly {r : Reg} (hr : r ∈ [Reg.status, Reg.errInfo, Reg.keyVar]) (s : State) (v : Word) :
    r ≠ .cmd ∧ s.writeReg r v = s := by
  simp only [List.mem_cons, List.not_mem_nil, or_false] at hr
  rcases hr with rfl | rfl | rfl <;> exact ⟨by decide, rfl⟩

section
variable {off : Nat} (s : State)

/-- A reserved offset reads 0 (R38). -/
theorem hostRegRead_reserved (h : target off = .reserved) (hoff : off % 4 = 0) :
    hostRegRead .word off s = .next { s with readData := 0 } := by
  simp only [hostRegRead, h, Width.bytes, hoff, if_true]

/-- A reserved offset ignores writes (R38). -/
theorem hostRegWrite_reserved (h : target off = .reserved) (hoff : off % 4 = 0) (v : Word) :
    hostRegWrite .word off v s = .next s := by
  simp only [hostRegWrite, h, Width.bytes, hoff, if_true]

variable {width : Width}

/-- A register is read by a whole aligned word only (R38; U6). -/
theorem hostRegRead_refused {r : Reg} (h : target off = .reg r) (hshape : width ≠ .word ∨ off % 4 ≠ 0) :
    hostRegRead width off s = .refused .accessShape := by
  simp only [hostRegRead, h]
  exact if_neg (not_and_or.2 hshape)

/-- A register is written by a whole aligned word only (R38; U6). -/
theorem hostRegWrite_refused {r : Reg} (h : target off = .reg r) (hshape : width ≠ .word ∨ off % 4 ≠ 0) (v : Word) :
    hostRegWrite width off v s = .refused .accessShape := by
  simp only [hostRegWrite, h]
  exact if_neg (not_and_or.2 hshape)

/-- The window is read by single bytes only (R33, R38; U6). -/
theorem hostRegRead_kswin_refused {n : Nat} (h : target off = .kswin n) (hshape : width ≠ .byte) :
    hostRegRead width off s = .refused .accessShape := by
  simp only [hostRegRead, h]
  exact if_neg hshape

end

/-- Settles O10: the access by what stands at its offset: a read-only register, the window, a reserved offset, or a register
accessed in another shape (R38). -/
theorem registerAccessRules : Obligations.RegisterAccessRules := by
  intro s rest off v
  refine ⟨fun r hr hp => ?readOnly, fun hlo hhi hp => ?windowWrite, fun hoff halign => ⟨fun hp => ?reservedRead,
    fun hp => ?reservedWrite⟩, fun hoff width hshape => ?shape, fun hlo hhi width hshape hp => ?windowShape⟩
  case readOnly =>
    obtain ⟨hcmd, hsame⟩ := State.writeReg_readOnly hr { s with pending := rest } v
    rw [step_wr hp hcmd, hsame]
  case windowWrite =>
    obtain ⟨n, rfl⟩ := Nat.exists_eq_add_of_le hlo
    rw [step_cons hp, hostStep_write_kswin (by omega)]
  case reservedRead =>
    rw [step_cons hp]
    exact hostRegRead_reserved _ (target_reserved hoff) halign
  case reservedWrite =>
    rw [step_cons hp]
    exact hostRegWrite_reserved _ (target_reserved hoff) halign v
  case shape =>
    obtain ⟨r, hr⟩ := target_reg hoff
    refine ⟨fun hp => ?_, fun hp => ?_⟩
    · rw [step_cons hp]
      exact hostRegRead_refused _ hr hshape
    · rw [step_cons hp]
      exact hostRegWrite_refused _ hr hshape v
  case windowShape =>
    rw [step_cons hp]
    exact hostRegRead_kswin_refused _ (target_kswin hlo hhi) hshape

/-! ### Reset -/

/-- Settles O13: the reset state is zero in every register, and has no key (R37). -/
theorem resetValues : Obligations.ResetValues := by
  refine ⟨rfl, fun r => ?_, by decide, by decide⟩
  cases r <;> rfl

/-- Without a key ENCRYPT and DECRYPT report UnsupportedOperation once their buffers are good (R164). -/
theorem exec_cipher_without_key {i : Instr} (hi : i = .encrypt ∨ i = .decrypt) {s : State} (hbuf : s.BuffersOk)
    (hkey : s.kvar = .none) : exec i s = .next (s.failed 0x5) := by
  obtain ⟨hsrc, hsrc16, hdst16, hiv, hle⟩ := hbuf
  have hcheck : s.cipherOperands.check s.kvar = some ⟨.unsupportedOperation, .none, 0⟩ :=
    CipherOperands.check_of_no_key hsrc hsrc16 hdst16 hiv hle (by rw [hkey]; decide)
  exact exec_cipher_of_check hi hcheck

/-- Settles O14: the reset event drops the key and clears the registers, and no cipher runs without a key (R190, R191). -/
theorem resetEventValues : Obligations.ResetEventValues := by
  intro s rest hp
  refine ⟨_, step_cons hp, State.resetEvent_kvar _, State.resetEvent_regValue _, State.resetEvent_mem _,
    State.resetEvent_pending _, fun i hi u hkey hbuf => ?_⟩
  exact exec_cipher_without_key hi hbuf (hkey.trans (State.resetEvent_kvar _))

/-! ### Host stores and loads -/

/-- A host store to ordinary memory writes its byte (R39). -/
theorem step_memWrite {s : State} {a : Nat} {v : Byte} {rest : List HostOp} (hp : s.pending = .memWrite a v :: rest)
    (hkind : s.mem.kindAt a = some .ordinary) : step s = .next { s with pending := rest, mem := s.mem.write a v } := by
  rw [step_cons hp]
  simp only [hostStep, hostMemWrite, hkind]

/-- A host load from ordinary memory returns its byte (R39). -/
theorem step_memRead {s : State} {a : Nat} {rest : List HostOp} (hp : s.pending = .memRead a :: rest)
    (hkind : s.mem.kindAt a = some .ordinary) :
    step s = .next { s with pending := rest, readData := (s.mem.read a).setWidth 32 } := by
  rw [step_cons hp]
  simp only [hostStep, hostMemRead, hkind]

/-- Settles O48: the store changes one byte and not the map, and the load returns that byte (R39). -/
theorem hostStoreThenLoad : Obligations.HostStoreThenLoad := by
  intro s x v rest hwf hkind hp
  exact ⟨_, _, step_memWrite hp hkind, step_memRead rfl hkind,
    congrArg (BitVec.setWidth 32) (Memory.read_write_eq hwf x v), fun a ha => Memory.read_write_ne s.mem v ha, rfl⟩

end Sys2Proof.Machine

/-! KEYLOAD and KEYDISCARD: what they leave, and what they leave alone (41_key_schedule.md R125 to R129; 10_state.md R26). -/

namespace Sys2Proof.Machine

/-- Settles O17: the store takes the key's schedule with the tag, and the load is the one access (R125, R127). -/
theorem keyloadLoadsTheSchedule : Obligations.KeyloadLoadsTheSchedule := by
  intro s hlaunch
  refine ⟨_, execKeyload_of_launch hlaunch, State.keyOK_of_rk ?tag ?store, rfl, rfl, ?mem, ?accesses⟩
  case tag => rw [State.complete_kvar, State.forgetRound_kvar, State.storeSchedule_kvar]
  case store => rw [State.complete_rk, State.forgetRound_rk, State.storeSchedule_rk]
  case mem => rw [State.complete_mem, State.forgetRound_mem, State.storeSchedule_mem, State.memRead_snd_mem]
  case accesses =>
    rw [State.complete_accesses, State.forgetRound_accesses, State.storeSchedule_accesses, State.memRead_snd_accesses]

/-- KEYLOAD writes no memory and no working register but the round index (R126; log 10). -/
theorem execKeyload_frame {s t : State} (h : exec .keyload s = .next t) :
    t.mem = s.mem ∧ t.st = s.st ∧ t.fb = s.fb ∧ t.lcb = s.lcb ∧ t.seqI = s.seqI := by
  rcases execKeyload_cases h with ⟨-, hout⟩ | ⟨-, -, r, hout⟩ | ⟨-, hout⟩
  · obtain rfl := Host.Outcome.next.inj hout
    exact ⟨rfl, rfl, rfl, rfl, rfl⟩
  · cases hout
  · obtain rfl := Host.Outcome.next.inj hout
    simp

/-- Settles O19: no command writes the interface, KEYLOAD writes no memory, and a failed one nothing but the status (R126, R166). -/
theorem keyloadFrame : Obligations.KeyloadFrame := by
  intro s t h
  obtain ⟨hmem, hst, hfb, hlcb, hseqI⟩ := execKeyload_frame h
  refine ⟨State.sameInterface_of_interface (exec_interface h), hmem, fun a => by rw [hmem], hst, hfb, hlcb, hseqI,
    fun herr => ?_⟩
  obtain ⟨e, rfl⟩ := execKeyload_eq_failed h herr
  exact ⟨rfl, rfl, rfl, rfl⟩

/-- Settles O21: the tag goes, the store's bytes become free values, and no cipher runs without the tag (R129). -/
theorem keydiscardEndsTheKey : Obligations.KeydiscardEndsTheKey := by
  intro s
  have hexec := execKeydiscard_eq s
  have hkey : s.dropKey.forgetStore.complete.kvar = .none := by simp
  have hmem : s.dropKey.forgetStore.complete.mem = s.mem := by simp
  refine ⟨_, hexec, hkey, rfl, rfl, State.sameInterface_of_interface (exec_interface hexec), hmem, fun a => by rw [hmem],
    by simp, by simp, by simp, by simp, by simp, by simp, fun hbuf i hi => ?_⟩
  exact exec_cipher_without_key hi (by simpa [State.BuffersOk] using hbuf) hkey

/-! ### The rounds -/

/-- Settles O56: the ten constants, each next to the one before (R111). -/
theorem rconIsSuccessiveDoubling : Obligations.RconIsSuccessiveDoubling := ⟨rfl, by decide, rfl⟩

/-- The round index stands at the last round performed (R26, R143). -/
theorem seqR_foldl_encryptRound (l : List (Fin 22)) (r : Fin 22) (s : State) :
    ((l ++ [r]).foldl State.encryptRound s).seqR = BitVec.ofNat 4 r.val := by
  rw [List.foldl_append, List.foldl_cons, List.foldl_nil, State.encryptRound_seqR]

/-- The round index stands at the last round performed (R26, R153). -/
theorem seqR_foldl_decryptRound (l : List (Fin 22)) (r : Fin 22) (s : State) :
    ((l ++ [r]).foldl State.decryptRound s).seqR = BitVec.ofNat 4 r.val := by
  rw [List.foldl_append, List.foldl_cons, List.foldl_nil, State.decryptRound_seqR]

/-- The first rounds of a block end with the round of their number (R143, R153). -/
theorem take_rounds {j : Nat} (hj : j < 9) : ([1, 2, 3, 4, 5, 6, 7, 8, 9] : List (Fin 22)).take (j + 1) =
    ([1, 2, 3, 4, 5, 6, 7, 8, 9] : List (Fin 22)).take j ++ [⟨j + 1, by omega⟩] := by
  interval_cases j <;> rfl

/-- The first turns of KEYLOAD's loop are those of the rounds from 1 (R125). -/
theorem take_keyRounds {j : Nat} (hj : j ≤ 10) : [1, 2, 3, 4, 5, 6, 7, 8, 9, 10].take j = List.range' 1 j := by
  interval_cases j <;> rfl

/-- Settles O57: each turn sets the round index to its own number, and the final round of a block sets it to 10 (R26). -/
theorem sequencerCountsTheRounds : Obligations.SequencerCountsTheRounds := by
  intro s k o j hpos
  obtain ⟨j, rfl⟩ := Nat.exists_eq_add_of_le' hpos
  refine ⟨fun hj => ?_, fun hj => ?_, ?_, ?_⟩
  · rw [take_keyRounds hj]
    exact State.foldl_keyRound s k j
  · rw [take_rounds hj]
    exact ⟨seqR_foldl_encryptRound _ _ s, seqR_foldl_decryptRound _ _ s⟩
  · rw [State.encryptStep_eq]
  · rw [State.decryptStep_eq]

end Sys2Proof.Machine

/-! ENCRYPT and DECRYPT: the memory of their access order, the CBC equations of their blocks, what they leave alone, and when they
are refused (42_cbc_encrypt.md, 43_cbc_decrypt.md; 20_memory.md R51 to R60). -/

namespace Sys2Proof.Machine

/-! ### The loop, turn by turn -/

/-- Memory after `j` turns of ENCRYPT's loop (R143). -/
def State.encryptMem (s : State) (j : Nat) : Memory :=
  ((State.encryptStep s.cipherOperands)^[j] (s.loadIv s.cipherOperands)).mem

/-- The block ENCRYPT writes in turn `j` (R143). -/
def State.encryptedBlock (s : State) (j : Nat) : Block :=
  ((State.encryptStep s.cipherOperands)^[j] (s.loadIv s.cipherOperands)).encryptOut s.cipherOperands

/-- Memory after `j` turns of DECRYPT's loop (R153). -/
def State.decryptMem (s : State) (j : Nat) : Memory :=
  ((State.decryptStep s.cipherOperands)^[j] (s.loadIv s.cipherOperands)).mem

/-- The block DECRYPT writes in turn `j` (R153). -/
def State.decryptedBlock (s : State) (j : Nat) : Block :=
  ((State.decryptStep s.cipherOperands)^[j] (s.loadIv s.cipherOperands)).decryptOut s.cipherOperands

/-- Turn `j` encrypts the block it finds at its input address, chained to the block written the turn before, or the IV (R142,
R143). -/
theorem State.encryptedBlock_eq (s : State) (j : Nat) :
    s.encryptedBlock j = encryptBlock s.rk (((s.encryptMem j).readBlock (s.srcAddr + 16 * j)).xor
      (if j = 0 then s.ivBlock else s.encryptedBlock (j - 1))) := by
  rw [State.encryptedBlock, State.encryptOut, State.rk_encrypt, (loopTurn_encrypt _).seqI_iterate, State.fb_encrypt]
  rfl

/-- Turn `j` decrypts the block it finds at its input address, chained to the block read the turn before, or the IV (R152,
R153). -/
theorem State.decryptedBlock_eq (s : State) (j : Nat) :
    s.decryptedBlock j = (decryptBlock s.rk ((s.decryptMem j).readBlock (s.srcAddr + 16 * j))).xor
      (if j = 0 then s.ivBlock else (s.decryptMem (j - 1)).readBlock (s.srcAddr + 16 * (j - 1))) := by
  rw [State.decryptedBlock, State.decryptOut, State.rk_decrypt, (loopTurn_decrypt _).seqI_iterate, State.fb_decrypt]
  rfl

/-- ENCRYPT where it executes normally: it completes with the memory of its last turn (R143, R167). -/
theorem execEncrypt_completes {s : State} (h : s.CipherLaunch) :
    ∃ t, exec .encrypt s = .next t ∧ t.status = 0x1 ∧ t.errInfo = 0 ∧ t.mem = s.encryptMem s.blockCount := by
  refine ⟨_, execEncrypt_of_launch h, rfl, rfl, ?_⟩
  rw [State.complete_mem, State.forgetWork_mem, State.encryptMem]

/-- DECRYPT where it executes normally: it completes with the memory of its last turn (R153, R167). -/
theorem execDecrypt_completes {s : State} (h : s.CipherLaunch) :
    ∃ t, exec .decrypt s = .next t ∧ t.status = 0x1 ∧ t.errInfo = 0 ∧ t.mem = s.decryptMem s.blockCount := by
  refine ⟨_, execDecrypt_of_launch h, rfl, rfl, ?_⟩
  rw [State.complete_mem, State.forgetLcb_mem, State.forgetWork_mem, State.decryptMem]

/-- Settles O23: the memories and the blocks of the turns, one after another (R56, R143). -/
theorem encryptFollowsTheAccessOrder : Obligations.EncryptFollowsTheAccessOrder := by
  intro s hlaunch
  obtain ⟨t, hexec, hstatus, herr, hmem⟩ := execEncrypt_completes hlaunch
  exact ⟨t, s.encryptMem, s.encryptedBlock, hexec, hstatus, herr, rfl, hmem,
    fun i _ => ⟨s.encryptedBlock_eq i, (loopTurn_encrypt _).mem_succ s i⟩⟩

/-- Settles O24: the memories of the turns, and the blocks they read (R56, R153). -/
theorem decryptFollowsTheAccessOrder : Obligations.DecryptFollowsTheAccessOrder := by
  intro s hlaunch
  obtain ⟨t, hexec, hstatus, herr, hmem⟩ := execDecrypt_completes hlaunch
  refine ⟨t, s.decryptMem, fun i => (s.decryptMem i).readBlock (s.srcAddr + 16 * i), hexec, hstatus, herr, rfl, hmem,
    fun i _ => ⟨rfl, ?_⟩⟩
  rw [← State.decryptedBlock_eq]
  exact (loopTurn_decrypt _).mem_succ s i

/-! ### The CBC equations -/

/-- The blocks of a command that passed its checks cover SRC exactly (R112, R164). -/
theorem State.BuffersOk.blocks {s : State} (h : s.BuffersOk) : 16 * s.blockCount = s.srcLen := by
  obtain ⟨-, halign, -⟩ := h
  rw [State.blockCount]
  omega

/-- Without forward overlap a turn of either loop finds its input block as it was before the command (R60). -/
theorem LoopTurn.srcBlock_unchanged {s : State} {body : State → State} {out : State → Block}
    (h : LoopTurn s.cipherOperands body out) (hbuf : s.BuffersOk) (hover : s.NoForwardOverlap) {j : Nat}
    (hj : j < s.blockCount) :
    (body^[j] (s.loadIv s.cipherOperands)).mem.readBlock (s.srcAddr + 16 * j) = s.srcBlock j :=
  h.srcBlock_iterate s hj (by rw [hbuf.blocks]; exact hover)

/-- Settles O25: an output block stays as its turn wrote it, and the turn read its input as it was (R60, R143). -/
theorem encryptChainsItsBlocks : Obligations.EncryptChainsItsBlocks := by
  intro s hwf hlaunch hover
  obtain ⟨t, hexec, hstatus, herr, hmem⟩ := execEncrypt_completes hlaunch
  have hdst : ∀ i < s.blockCount, t.mem.readBlock (s.dstAddr + 16 * i) = s.encryptedBlock i := fun i hi => by
    rw [hmem]
    exact (loopTurn_encrypt _).dstBlock_iterate s hi hwf
  refine ⟨t, hexec, hstatus, herr, fun i hi => ?_⟩
  have hsrc : (s.encryptMem i).readBlock (s.srcAddr + 16 * i) = s.srcBlock i :=
    (loopTurn_encrypt _).srcBlock_unchanged hlaunch.1 hover hi
  rw [hdst i hi, s.encryptedBlock_eq i, hsrc, hdst (i - 1) (by omega)]

/-- Settles O26: an output block stays as its turn wrote it, and the turns read their inputs as they were (R60, R153). -/
theorem decryptChainsItsBlocks : Obligations.DecryptChainsItsBlocks := by
  intro s hwf hlaunch hover
  obtain ⟨t, hexec, hstatus, herr, hmem⟩ := execDecrypt_completes hlaunch
  have hsrc : ∀ i < s.blockCount, (s.decryptMem i).readBlock (s.srcAddr + 16 * i) = s.srcBlock i := fun i hi =>
    (loopTurn_decrypt _).srcBlock_unchanged hlaunch.1 hover hi
  refine ⟨t, hexec, hstatus, herr, fun i hi => ?_⟩
  have hdst : t.mem.readBlock (s.dstAddr + 16 * i) = s.decryptedBlock i := by
    rw [hmem]
    exact (loopTurn_decrypt _).dstBlock_iterate s hi hwf
  rw [hdst, s.decryptedBlock_eq i, hsrc i hi, hsrc (i - 1) (by omega)]

/-- Settles O32: by induction on the block, each ciphertext block is made of its plaintext block and the ciphertext block before
it (R145). -/
theorem leadingCiphertextBlocksDependOnLeadingPlaintext : Obligations.LeadingCiphertextBlocksDependOnLeadingPlaintext := by
  intro s₁ s₂ n hwf₁ hwf₂ hlaunch₁ hlaunch₂ hover₁ hover₂ hrk hiv hn₁ hn₂ hsrc
  obtain ⟨t₁, hexec₁, -, -, hchain₁⟩ := encryptChainsItsBlocks s₁ hwf₁ hlaunch₁ hover₁
  obtain ⟨t₂, hexec₂, -, -, hchain₂⟩ := encryptChainsItsBlocks s₂ hwf₂ hlaunch₂ hover₂
  refine ⟨t₁, t₂, hexec₁, hexec₂, fun i hi => ?_⟩
  induction i with
  | zero =>
    rw [hchain₁ 0 (by omega), hchain₂ 0 (by omega), hrk, hsrc 0 hi, if_pos rfl, if_pos rfl, hiv]
  | succ i ih =>
    rw [hchain₁ (i + 1) (by omega), hchain₂ (i + 1) (by omega), hrk, hsrc (i + 1) hi, if_neg (Nat.succ_ne_zero i),
      if_neg (Nat.succ_ne_zero i), Nat.add_sub_cancel, ih (by omega)]

/-- Settles O33: the change passes through the chaining ⊕ alone (R155). -/
theorem ciphertextChangeFlipsTheNextBlock : Obligations.CiphertextChangeFlipsTheNextBlock := by
  intro s₁ s₂ i δ hwf₁ hwf₂ hlaunch₁ hlaunch₂ hover₁ hover₂ hrk hi₁ hi₂ hchange hsame
  obtain ⟨t₁, hexec₁, -, -, hchain₁⟩ := decryptChainsItsBlocks s₁ hwf₁ hlaunch₁ hover₁
  obtain ⟨t₂, hexec₂, -, -, hchain₂⟩ := decryptChainsItsBlocks s₂ hwf₂ hlaunch₂ hover₂
  refine ⟨t₁, t₂, hexec₁, hexec₂, ?_⟩
  rw [hchain₁ _ hi₁, hchain₂ _ hi₂, if_neg (Nat.succ_ne_zero i), if_neg (Nat.succ_ne_zero i), Nat.add_sub_cancel, hsame, hchange,
    hrk, Block.xor_assoc]

/-! ### The inverse cipher -/

/-- An inverse round with the transformed key undoes a round, both seen between ShiftRows and AddRoundKey (R104, R106, R108). -/
theorem aesInvRound_aesRound (x k : Block) :
    aesInvRound (shiftRows (subBytes (aesRound x k))) (invMixColumns k) = shiftRows (subBytes x) := by
  rw [aesInvRound, invShiftRows_shiftRows, invSubBytes_subBytes, addRoundKey, ← invMixColumns_xor, aesRound_xor_key,
    invMixColumns_mixColumns]

/-- Inverse rounds with the transformed keys, last first, undo as many rounds (R108, R155). -/
theorem foldl_aesInvRound_foldl_aesRound (ks : List Block) (x : Block) :
    (ks.reverse.map invMixColumns).foldl aesInvRound (shiftRows (subBytes (ks.foldl aesRound x))) =
      shiftRows (subBytes x) := by
  induction ks generalizing x with
  | nil => rfl
  | cons k ks ih =>
    rw [List.foldl_cons, List.reverse_cons, List.map_append, List.foldl_append, ih]
    exact aesInvRound_aesRound x k

/-- The keys of rounds 1 to 9 (R123). -/
def middleKeys (k : Block) : List Block := [1, 2, 3, 4, 5, 6, 7, 8, 9].map (forwardKey k)

theorem keySchedule_getElem (k : Block) (i : Fin 22) : (keySchedule k)[i] = scheduleSlot (forwardKey k) i.val := by
  simp [keySchedule, scheduleOf]

/-- The block cipher with the schedule of a key uses its forward keys (R124, R143). -/
theorem encryptBlock_keySchedule (k x : Block) :
    encryptBlock (keySchedule k) x = aesFinalRound ((middleKeys k).foldl aesRound (x.xor k)) (forwardKey k 10) := by
  simp only [encryptBlock, keySchedule_getElem]
  rfl

/-- The inverse block cipher with the schedule of a key uses its last forward key, the transformed keys last first, and the raw
key (R124, R153). -/
theorem decryptBlock_keySchedule (k y : Block) :
    decryptBlock (keySchedule k) y = aesInvFinalRound
      (((middleKeys k).reverse.map invMixColumns).foldl aesInvRound (y.xor (forwardKey k 10))) k := by
  simp only [decryptBlock, keySchedule_getElem]
  rfl

/-- Settles O30: the last key cancels, the nine rounds are undone, and the first key cancels (R108, R155). -/
theorem blockDecryptInvertsEncrypt : Obligations.BlockDecryptInvertsEncrypt := by
  intro k x
  rw [encryptBlock_keySchedule, decryptBlock_keySchedule, aesFinalRound_xor_key, foldl_aesInvRound_foldl_aesRound,
    aesInvFinalRound, invShiftRows_shiftRows, invSubBytes_subBytes]
  exact Block.xor_xor_cancel x k

/-! ### What ENCRYPT and DECRYPT leave alone -/

/-- ENCRYPT and DECRYPT leave the store and the tag alone (R144, R154). -/
theorem exec_cipher_key {i : Instr} (hi : i = .encrypt ∨ i = .decrypt) {s t : State} (h : exec i s = .next t) :
    t.rk = s.rk ∧ t.kvar = s.kvar := by
  rcases exec_cases h with ⟨e, -, rfl⟩ | ⟨rfl, -⟩ | ⟨-, -, rfl⟩ | ⟨-, -, rfl⟩ | ⟨rfl, -⟩
  · exact ⟨rfl, rfl⟩
  · rcases hi with hi | hi <;> cases hi
  · simp [State.rk_encrypt, State.kvar_encrypt]
  · simp [State.rk_decrypt, State.kvar_decrypt]
  · rcases hi with hi | hi <;> cases hi

/-- ENCRYPT leaves LCB alone (R25). -/
theorem execEncrypt_lcb {s t : State} (h : exec .encrypt s = .next t) : t.lcb = s.lcb := by
  rcases runCipher_cases ((exec_encrypt s).symm.trans h) with ⟨-, e, -, -, hout⟩ | ⟨-, -, -, r, hout⟩ | ⟨-, hout⟩
  · rw [Host.Outcome.next.inj hout]
    rfl
  · cases hout
  · rw [Host.Outcome.next.inj hout, State.complete_lcb, State.forgetWork_lcb, State.lcb_encrypt]

/-- A command changes a byte of memory only where ENCRYPT or DECRYPT writes its output (R53, R56, R126). -/
theorem exec_read {i : Instr} {s t : State} (h : exec i s = .next t) (a : Nat) :
    t.mem.read a = s.mem.read a ∨
      ((i = .encrypt ∨ i = .decrypt) ∧ t.err = false ∧ s.dstAddr ≤ a ∧ a < s.dstAddr + s.srcLen) := by
  rcases exec_cases h with ⟨e, -, rfl⟩ | ⟨-, -, rfl⟩ | ⟨hi, hlaunch, rfl⟩ | ⟨hi, hlaunch, rfl⟩ | ⟨-, rfl⟩
  · exact .inl rfl
  · left; simp
  · by_cases ha : s.dstAddr ≤ a ∧ a < s.dstAddr + s.srcLen
    · exact .inr ⟨.inl hi, State.complete_err _, ha⟩
    · left
      rw [State.complete_mem, State.forgetWork_mem]
      refine (loopTurn_encrypt _).read_iterate s _ (show a < s.dstAddr ∨ s.dstAddr + 16 * s.blockCount ≤ a from ?_)
      have := hlaunch.1.blocks
      omega
  · by_cases ha : s.dstAddr ≤ a ∧ a < s.dstAddr + s.srcLen
    · exact .inr ⟨.inr hi, State.complete_err _, ha⟩
    · left
      rw [State.complete_mem, State.forgetLcb_mem, State.forgetWork_mem]
      refine (loopTurn_decrypt _).read_iterate s _ (show a < s.dstAddr ∨ s.dstAddr + 16 * s.blockCount ≤ a from ?_)
      have := hlaunch.1.blocks
      omega
  · left; simp

/-- Settles O27: the interface, the key, the bytes outside the output, and on failure everything but the status (R144, R154,
R166). -/
theorem cipherFrame : Obligations.CipherFrame := by
  intro s t i hi h
  have hsame := exec_interface h
  obtain ⟨hrk, hkey⟩ := exec_cipher_key hi h
  refine ⟨State.sameInterface_of_interface hsame, hrk, hkey, State.aw_of_interface hsame, State.map_of_interface hsame,
    fun hi => execEncrypt_lcb (hi ▸ h), fun a hout => ?outside, fun herr => ?failed⟩
  case outside =>
    rcases exec_read h a with heq | ⟨-, -, hin⟩
    · exact heq
    · omega
  case failed =>
    obtain ⟨e, rfl⟩ := exec_eq_failed h herr
    rfl

/-- Settles O31: DECRYPT's block cipher undoes ENCRYPT's, and its chaining ⊕ cancels (R155). -/
theorem commandRoundTrip : Obligations.CommandRoundTrip := by
  intro k s hwf hkey hlaunch hover
  obtain ⟨t, hexec, -, -, henc⟩ := encryptChainsItsBlocks s hwf hlaunch hover
  refine ⟨t, hexec, fun u hwfu hlaunchu hoveru hrk hlen hiv hsrc => ?_⟩
  obtain ⟨v, hexecv, -, -, hdec⟩ := decryptChainsItsBlocks u hwfu hlaunchu hoveru
  have hcount : u.blockCount = s.blockCount := by rw [State.blockCount, hlen, State.blockCount]
  have hstore : s.rk = keySchedule k := State.rk_of_keyOK hkey
  obtain ⟨hkept, -⟩ := exec_cipher_key (.inl rfl) hexec
  refine ⟨v, hexecv, fun i hi => ?_⟩
  rw [hdec i (hcount ▸ hi), hsrc i hi, henc i hi, hsrc (i - 1) (by omega), hrk, hkept, hstore,
    blockDecryptInvertsEncrypt, hiv, Block.xor_xor_cancel]

/-- Settles O34: each turn of either loop adds one, and the blocks of an AW-bit length are fewer than 2^(AW-4) (R26). -/
theorem sequencerCountsTheBlocks : Obligations.SequencerCountsTheBlocks := fun s j hj =>
  ⟨(loopTurn_encrypt _).seqI_iterate s j, (loopTurn_decrypt _).seqI_iterate s j, fun hlen => hj.trans_lt (s.blockCount_lt hlen)⟩

/-! ### Ranges that are refused -/

/-- The launch check refuses by one of three names (R51; U4, U5). -/
theorem Memory.rangeRefusal_mem {m : Memory} {range : Nat × Nat} {r : Refusal} (h : m.rangeRefusal range = some r) :
    r ∈ [Refusal.rangeWraps, Refusal.rangeAbsent, Refusal.rangeDevice] := by
  unfold Memory.rangeRefusal at h
  split at h
  · cases h; decide
  · split at h
    · cases h; decide
    · split at h
      · cases h; decide
      · cases h

/-- A launch that is not accepted is refused by one of three names (R51; U4, U5). -/
theorem Memory.launchRefusal_mem {m : Memory} {ranges : List (Nat × Nat)} (h : m.launchRefusal ranges ≠ none) :
    ∃ r ∈ [Refusal.rangeWraps, Refusal.rangeAbsent, Refusal.rangeDevice], m.launchRefusal ranges = some r := by
  obtain ⟨r, hr⟩ := Option.ne_none_iff_exists'.1 h
  obtain ⟨range, -, hrange⟩ := List.exists_of_findSome?_eq_some hr
  exact ⟨r, Memory.rangeRefusal_mem hrange, hr⟩

/-- The frame both ciphers share refuses as the launch check does, once the checks pass (R51, R164). -/
theorem runCipher_of_launchRefusal {body : CipherOperands → State → State} {forget : State → State} {s : State} {r : Refusal}
    (hcheck : s.cipherOperands.check s.kvar = none) (h : s.mem.launchRefusal s.cipherOperands.ranges = some r) :
    runCipher body forget s = .refused r := by
  simp only [runCipher, hcheck, h]

/-- Settles O35: the checks pass, so the command's outcome is the launch check's (R51). -/
theorem badRangesAreRefused : Obligations.BadRangesAreRefused := by
  refine ⟨fun s hlen hrange => ?_, fun s i hi hbuf hkey hrange => ?_⟩
  · obtain ⟨r, hr, hlaunch⟩ := Memory.launchRefusal_mem (mt State.key_launchRefusal_eq_none.1 hrange)
    refine ⟨r, hr, ?_⟩
    simp only [exec, execKeyload, KeyOperands.check_eq_none.2 hlen, hlaunch]
  · obtain ⟨r, hr, hlaunch⟩ := Memory.launchRefusal_mem (mt State.cipher_launchRefusal_eq_none.1 hrange)
    have hcheck := CipherOperands.check_eq_none.2 ⟨hbuf, hkey⟩
    refine ⟨r, hr, ?_⟩
    rcases hi with rfl | rfl
    · rw [exec_encrypt, runCipher_of_launchRefusal hcheck hlaunch]
    · rw [exec_decrypt, runCipher_of_launchRefusal hcheck hlaunch]

end Sys2Proof.Machine

/-! The whole machine: what changes the tag, memory and the status, and what a command's result depends on (10_state.md R24, R25,
R31 to R34; 60_exceptions.md R163 to R171; 70_reset_and_hazards.md R203). -/

namespace Sys2Proof.Machine

/-! ### The tag and memory -/

/-- Settles O40: the three operations that write the tag, each with the value it writes (R24). -/
theorem keyTagChangesOnlyByLoadDiscardReset : Obligations.KeyTagChangesOnlyByLoadDiscardReset := by
  intro s t op rest hp hstep hne
  rcases step_kvar hp hstep with hsame | hload | hend
  · exact absurd hsame hne
  · exact .inl hload
  · exact .inr hend

/-- A CMD write changes a byte of memory only where ENCRYPT or DECRYPT writes its output (R53, R56). -/
theorem runCommand_read {w : Word} {s t : State} (h : runCommand w s = .next t) (a : Nat) :
    t.mem.read a = s.mem.read a ∨
      ((w = encode .encrypt ∨ w = encode .decrypt) ∧ t.err = false ∧ s.dstAddr ≤ a ∧ a < s.dstAddr + s.srcLen) := by
  rcases runCommand_next h with ⟨i, rfl, hexec⟩ | rfl
  · exact (exec_read hexec a).imp_right fun ⟨hi, hrest⟩ => ⟨hi.imp (congrArg encode) (congrArg encode), hrest⟩
  · exact .inl rfl

/-- A write of a register leaves memory alone (R29). -/
@[simp] theorem State.writeReg_mem (s : State) (r : Reg) (v : Word) : (s.writeReg r v).mem = s.mem := by
  cases r <;> rfl

/-- Settles O41: of the operations a step can perform, a cipher, a byte store and a cut command write memory (R39, R56, R192). -/
theorem memoryChangesOnlyByCipherOrHost : Obligations.MemoryChangesOnlyByCipherOrHost := by
  intro s t op rest a hp hstep hne
  rw [step_cons hp] at hstep
  rcases hostStep_cases hstep with ⟨w, rfl, hrun⟩ | ⟨r, v, -, -, rfl⟩ | ⟨-, rfl⟩ | ⟨-, d, c, rfl⟩ | ⟨b, v, rfl, rfl⟩ |
    ⟨-, rfl⟩ | ⟨w, u, rfl, -, -⟩
  · rcases runCommand_read hrun a with hsame | ⟨hw, hrest⟩
    · exact absurd hsame hne
    · exact .inl ⟨hw.imp (congrArg (HostOp.wr .cmd)) (congrArg (HostOp.wr .cmd)), hrest⟩
  · exact absurd (by rw [State.writeReg_mem]) hne
  · exact absurd rfl hne
  · exact absurd rfl hne
  · by_cases ha : a = b
    · exact .inr (.inl ⟨v, by rw [ha]⟩)
    · exact absurd (Memory.read_write_ne s.mem v ha) hne
  · exact absurd (by rw [State.resetEvent_mem]) hne
  · exact .inr (.inr ⟨w, rfl⟩)

/-! ### The status -/

/-- Settles O42: a command that completes clears ERR, and one that fails is the state before with the error recorded (R166). -/
theorem failedCommandChangesOnlyTheStatus : Obligations.FailedCommandChangesOnlyTheStatus := by
  intro s t w h herr
  rcases runCommand_ends h with ⟨e, -, rfl⟩ | ⟨u, rfl⟩
  · rfl
  · rw [State.complete_err] at herr
    cases herr

/-- A CMD write that goes on sets DONE (R166, R167). -/
theorem runCommand_done {w : Word} {s t : State} (h : runCommand w s = .next t) : t.done = true := by
  rcases runCommand_ends h with ⟨e, -, rfl⟩ | ⟨u, rfl⟩
  · exact State.failed_done ..
  · exact State.complete_done u

/-- Settles O43: a command completes, or fails with one of the eight values (R163, R167). -/
theorem errinfoValues : Obligations.ErrinfoValues := by
  intro s t w h
  refine ⟨runCommand_done h, ?_⟩
  rcases runCommand_ends h with ⟨e, he, rfl⟩ | ⟨u, rfl⟩
  · exact .inr ⟨State.failed_err .., rfl, he⟩
  · exact .inl ⟨State.complete_err u, rfl, rfl⟩

/-- A write of a register leaves STATUS alone (R31, R38). -/
@[simp] theorem State.writeReg_status (s : State) (r : Reg) (v : Word) : (s.writeReg r v).status = s.status := by
  cases r <;> rfl

/-- Settles O44: a command sets DONE, and the host's register, window and memory accesses keep STATUS (R31, R168). -/
theorem doneIsClearedOnlyByReset : Obligations.DoneIsClearedOnlyByReset := by
  intro s t op rest hp hstep hset hclear
  rw [step_cons hp] at hstep
  have hkept : t.status = s.status → False := fun h => by
    rw [State.done, h, ← State.done, hset] at hclear
    cases hclear
  rcases hostStep_cases hstep with ⟨w, -, hrun⟩ | ⟨r, v, -, -, rfl⟩ | ⟨-, rfl⟩ | ⟨-, d, c, rfl⟩ | ⟨a, v, -, rfl⟩ |
    ⟨rfl, -⟩ | ⟨w, u, rfl, -⟩
  · rw [runCommand_done hrun] at hclear
    cases hclear
  · exact (hkept (State.writeReg_status ..)).elim
  · exact (hkept rfl).elim
  · exact (hkept rfl).elim
  · exact (hkept rfl).elim
  · exact .inl rfl
  · exact .inr ⟨w, rfl⟩

/-! ### The path a command takes -/

/-- What the checks and the launch precondition look at: the operand registers, the tag, AW and the memory map (R203). -/
structure State.SameControl (s₁ s₂ : State) : Prop where
  keyOperands : s₁.keyOperands = s₂.keyOperands
  cipherOperands : s₁.cipherOperands = s₂.cipherOperands
  kvar : s₁.kvar = s₂.kvar
  aw : s₁.mem.aw = s₂.mem.aw
  map : s₁.mem.map = s₂.mem.map

/-- The launch check looks at AW and the map only (R51). -/
theorem Memory.launchRefusal_congr {m₁ m₂ : Memory} (haw : m₁.aw = m₂.aw) (hmap : m₁.map = m₂.map)
    (ranges : List (Nat × Nat)) : m₁.launchRefusal ranges = m₂.launchRefusal ranges := by
  cases m₁
  cases m₂
  cases haw
  cases hmap
  rfl

/-- The frame both ciphers share runs its body once the checks and the launch check pass (R143, R153). -/
theorem runCipher_of_accepted {body : CipherOperands → State → State} {forget : State → State} {s : State}
    (hcheck : s.cipherOperands.check s.kvar = none) (h : s.mem.launchRefusal s.cipherOperands.ranges = none) :
    runCipher body forget s =
      .next (forget ((body s.cipherOperands)^[s.blockCount] (s.loadIv s.cipherOperands))).complete := by
  simp only [runCipher, hcheck, h]
  rfl

section
variable {s₁ s₂ : State} (hsame : s₁.SameControl s₂)
include hsame

/-- KEYLOAD fails, is refused or runs at two such states alike (R203). -/
theorem execKeyload_path :
    (exec .keyload s₁ = .next (s₁.failed 0x11) ∧ exec .keyload s₂ = .next (s₂.failed 0x11)) ∨
    (∃ r, exec .keyload s₁ = .refused r ∧ exec .keyload s₂ = .refused r) ∨
    (s₁.KeyLaunch ∧ s₂.KeyLaunch) := by
  have hlen : s₁.keyLen = s₂.keyLen := congrArg KeyOperands.len hsame.keyOperands
  by_cases hlen₁ : s₁.keyLen = 16
  · have hcheck₁ := KeyOperands.check_eq_none.2 hlen₁
    have hcheck₂ := KeyOperands.check_eq_none.2 (hlen.symm.trans hlen₁)
    have hlaunch := Memory.launchRefusal_congr hsame.aw hsame.map s₁.keyOperands.ranges
    cases hr : s₁.mem.launchRefusal s₁.keyOperands.ranges with
    | none =>
      rw [hr, hsame.keyOperands] at hlaunch
      exact .inr (.inr ⟨⟨hlen₁, State.key_launchRefusal_eq_none.1 hr⟩,
        hlen.symm.trans hlen₁, State.key_launchRefusal_eq_none.1 hlaunch.symm⟩)
    | some r =>
      rw [hr, hsame.keyOperands] at hlaunch
      refine .inr (.inl ⟨r, ?_, ?_⟩)
      · simp only [exec, execKeyload, hcheck₁, hr]
      · simp only [exec, execKeyload, hcheck₂, ← hlaunch]
  · exact .inl ⟨keyloadOfAnotherLength.1 s₁ hlen₁, keyloadOfAnotherLength.1 s₂ (hlen ▸ hlen₁)⟩

/-- ENCRYPT and DECRYPT fail with the same error, are refused by the same name or run at two such states alike (R203). -/
theorem runCipher_path (body : CipherOperands → State → State) (forget : State → State) :
    (∃ e, runCipher body forget s₁ = .next (s₁.failed e) ∧ runCipher body forget s₂ = .next (s₂.failed e)) ∨
    (∃ r, runCipher body forget s₁ = .refused r ∧ runCipher body forget s₂ = .refused r) ∨
    (runCipher body forget s₁ =
        .next (forget ((body s₁.cipherOperands)^[s₁.blockCount] (s₁.loadIv s₁.cipherOperands))).complete ∧
      runCipher body forget s₂ =
        .next (forget ((body s₁.cipherOperands)^[s₁.blockCount] (s₂.loadIv s₁.cipherOperands))).complete) := by
  have hcheck : s₁.cipherOperands.check s₁.kvar = s₂.cipherOperands.check s₂.kvar := by
    rw [hsame.cipherOperands, hsame.kvar]
  have hlaunch := Memory.launchRefusal_congr hsame.aw hsame.map s₁.cipherOperands.ranges
  cases hc : s₁.cipherOperands.check s₁.kvar with
  | some e => exact .inl ⟨e.errInfo, runCipher_of_check hc, runCipher_of_check (hcheck.symm.trans hc)⟩
  | none =>
    cases hr : s₁.mem.launchRefusal s₁.cipherOperands.ranges with
    | some r =>
      rw [hr, hsame.cipherOperands] at hlaunch
      exact .inr (.inl ⟨r, runCipher_of_launchRefusal hc hr,
        runCipher_of_launchRefusal (hcheck.symm.trans hc) hlaunch.symm⟩)
    | none =>
      rw [hr, hsame.cipherOperands] at hlaunch
      have hcount : s₁.blockCount = s₂.blockCount := congrArg CipherOperands.blocks hsame.cipherOperands
      refine .inr (.inr ⟨runCipher_of_accepted hc hr, ?_⟩)
      rw [hsame.cipherOperands, hcount]
      exact runCipher_of_accepted (hcheck.symm.trans hc) hlaunch.symm

end

/-! ### Data -/

/-- ENCRYPT and DECRYPT end alike at two such states, and extend equal access records alike: the loop's accesses depend on
the operands only (R56, R203). -/
theorem runCipher_ignoresData {body : CipherOperands → State → State} {forget : State → State}
    {out : CipherOperands → State → Block} (hturn : ∀ o, LoopTurn o (body o) (out o))
    (hforget : ∀ s, (forget s).accesses = s.accesses) {s₁ s₂ t₁ : State} (hsame : s₁.SameControl s₂)
    (hacc : s₁.accesses = s₂.accesses) (h : runCipher body forget s₁ = .next t₁) :
    ∃ t₂, runCipher body forget s₂ = .next t₂ ∧ t₂.accesses = t₁.accesses ∧ t₂.status = t₁.status ∧
      t₂.errInfo = t₁.errInfo := by
  rcases runCipher_path hsame body forget with ⟨e, h₁, h₂⟩ | ⟨r, h₁, -⟩ | ⟨h₁, h₂⟩
  · obtain rfl := Host.Outcome.next.inj (h₁.symm.trans h)
    exact ⟨_, h₂, hacc.symm, rfl, rfl⟩
  · cases h₁.symm.trans h
  · obtain rfl := Host.Outcome.next.inj (h₁.symm.trans h)
    refine ⟨_, h₂, ?_, by simp, by simp⟩
    rw [State.complete_accesses, State.complete_accesses, hforget, hforget, (hturn _).accesses_iterate,
      (hturn _).accesses_iterate, hacc]

/-- Settles O29: the two states take one path, and along it the accesses depend on the operands only (R203). -/
theorem controlFlowIgnoresData : Obligations.ControlFlowIgnoresData := by
  intro s₁ s₂ t₁ i hkeyOps hcipherOps hkey haw hmap hacc h
  have hsame : s₁.SameControl s₂ := ⟨hkeyOps, hcipherOps, hkey, haw, hmap⟩
  have htag : i = .encrypt ∨ i = .decrypt → ∀ {t₂}, exec i s₂ = .next t₂ → t₂.kvar = t₁.kvar := fun hi t₂ h₂ => by
    rw [(exec_cipher_key hi h₂).2, (exec_cipher_key hi h).2, hkey]
  cases i with
  | keyload =>
    rcases execKeyload_path hsame with ⟨h₁, h₂⟩ | ⟨r, h₁, -⟩ | ⟨hlaunch₁, hlaunch₂⟩
    · obtain rfl := Host.Outcome.next.inj (h₁.symm.trans h)
      exact ⟨_, h₂, hacc.symm, rfl, rfl, hkey.symm⟩
    · cases h₁.symm.trans h
    · obtain rfl := Host.Outcome.next.inj ((execKeyload_of_launch hlaunch₁).symm.trans h)
      have haddr : s₁.keyAddr = s₂.keyAddr := congrArg KeyOperands.addr hkeyOps
      exact ⟨_, execKeyload_of_launch hlaunch₂, by simp [hacc, haddr]⟩
  | encrypt =>
    obtain ⟨t₂, h₂, haccesses, hstatus, herr⟩ := runCipher_ignoresData loopTurn_encrypt State.forgetWork_accesses hsame hacc h
    exact ⟨t₂, h₂, haccesses, hstatus, herr, htag (.inl rfl) h₂⟩
  | decrypt =>
    obtain ⟨t₂, h₂, haccesses, hstatus, herr⟩ := runCipher_ignoresData (forget := fun s => s.forgetWork.forgetLcb)
      loopTurn_decrypt (fun s => by simp) hsame hacc h
    exact ⟨t₂, h₂, haccesses, hstatus, herr, htag (.inr rfl) h₂⟩
  | keydiscard =>
    obtain rfl := Host.Outcome.next.inj ((execKeydiscard_eq s₁).symm.trans h)
    exact ⟨_, execKeydiscard_eq s₂, by simp [hacc]⟩

/-! ### The status words a command finds -/

/-- The state with other values in STATUS and ERRINFO. -/
def State.withStatus (status errInfo : Word) (s : State) : State := { s with status := status, errInfo := errInfo }

section
variable (status errInfo : Word)

/-- ENCRYPT's turn does not read or write the status words. -/
theorem State.encryptStep_commute_withStatus (o : CipherOperands) :
    Function.Commute (State.encryptStep o) (State.withStatus status errInfo) := fun s => by
  rw [State.encryptStep_eq, State.encryptStep_eq]
  rfl

/-- DECRYPT's turn does not read or write the status words. -/
theorem State.decryptStep_commute_withStatus (o : CipherOperands) :
    Function.Commute (State.decryptStep o) (State.withStatus status errInfo) := fun s => by
  rw [State.decryptStep_eq, State.decryptStep_eq]
  rfl

variable (s : State)

/-- What the checks look at has no status word in it. -/
theorem State.sameControl_withStatus : (s.withStatus status errInfo).SameControl s := ⟨rfl, rfl, rfl, rfl, rfl⟩

/-- The frame of both ciphers overwrites the status words it finds, where its body and its end do not touch them (R34, R168). -/
theorem runCipher_withStatus {body : CipherOperands → State → State} {forget : State → State}
    (hbody : ∀ o, Function.Commute (body o) (State.withStatus status errInfo))
    (hforget : ∀ s, (forget (s.withStatus status errInfo)).complete = (forget s).complete) :
    runCipher body forget (s.withStatus status errInfo) = runCipher body forget s := by
  rcases runCipher_path (s.sameControl_withStatus status errInfo) body forget with
    ⟨e, h₁, h₂⟩ | ⟨r, h₁, h₂⟩ | ⟨h₁, h₂⟩
  · exact h₁.trans h₂.symm
  · exact h₁.trans h₂.symm
  · have hload : ∀ o, (s.withStatus status errInfo).loadIv o = (s.loadIv o).withStatus status errInfo := fun _ => rfl
    rw [h₁, h₂, hload, ((hbody _).iterate_left _).eq, hforget]

/-- Every command overwrites the status words it finds (R34, R168). -/
theorem exec_withStatus (i : Instr) : exec i (s.withStatus status errInfo) = exec i s := by
  cases i with
  | keyload =>
    simp only [exec, execKeyload, State.keyRounds_eq]
    rfl
  | encrypt =>
    rw [exec_encrypt, exec_encrypt]
    exact runCipher_withStatus status errInfo s (State.encryptStep_commute_withStatus status errInfo) fun _ => rfl
  | decrypt =>
    rw [exec_decrypt, exec_decrypt]
    exact runCipher_withStatus status errInfo s (State.decryptStep_commute_withStatus status errInfo) fun _ => rfl
  | keydiscard => rfl

end

/-- Settles O45: an illegal word and every command overwrite the status words they find (R34, R166, R168). -/
theorem commandsIgnoreTheOldStatus : Obligations.CommandsIgnoreTheOldStatus := by
  intro s w status errInfo
  cases hdecode : decode w with
  | ok i =>
    rw [runCommand_of_decode hdecode, runCommand_of_decode hdecode]
    exact exec_withStatus status errInfo { s with cmd := w } i
  | error e =>
    rw [runCommand_of_decode_error hdecode, runCommand_of_decode_error hdecode]
    rfl

/-! ### The working registers a command finds -/

/-- The state with other values in ST, FB, LCB and the sequencer. -/
def State.withWork (st fb lcb : Block) (n : Nat) (r : BitVec 4) (s : State) : State :=
  { s with st := st, fb := fb, lcb := lcb, seqI := n, seqR := r }

/-- The state without the working registers that a turn of either loop writes before it reads them. -/
def State.withoutScratch (s : State) : State := { s with st := Block.zero, lcb := Block.zero, seqR := 0 }

/-- A turn of ENCRYPT does not read ST, LCB or the round index it finds (R143). -/
theorem State.withoutScratch_encryptStep (o : CipherOperands) :
    Function.Semiconj State.withoutScratch (State.encryptStep o) (fun s => (s.encryptStep o).withoutScratch) := fun s => by
  change (s.encryptStep o).withoutScratch = (s.withoutScratch.encryptStep o).withoutScratch
  rw [State.encryptStep_eq, State.encryptStep_eq]
  rfl

/-- A turn of DECRYPT does not read ST, LCB or the round index it finds (R153). -/
theorem State.withoutScratch_decryptStep (o : CipherOperands) :
    Function.Semiconj State.withoutScratch (State.decryptStep o) (fun s => (s.decryptStep o).withoutScratch) := fun s => by
  change (s.decryptStep o).withoutScratch = (s.withoutScratch.decryptStep o).withoutScratch
  rw [State.decryptStep_eq, State.decryptStep_eq]
  rfl

/-- A loop that does not read what it finds in ST, LCB and the round index comes out the same but for them, after the IV is
loaded (R143, R153). -/
theorem State.withoutScratch_iterate {body : State → State}
    (hbody : Function.Semiconj State.withoutScratch body (fun s => (body s).withoutScratch)) {s₁ s₂ : State}
    (h : s₁.withoutScratch = s₂.withoutScratch) (n : Nat) :
    (body^[n] s₁).withoutScratch = (body^[n] s₂).withoutScratch := by
  rw [(hbody.iterate_right n).eq, (hbody.iterate_right n).eq, h]

/-- The loop from the loaded IV leaves one memory and one store, whatever the working registers held before (R25, R36). -/
theorem State.iterate_withWork {o : CipherOperands} {body : State → State}
    (hbody : Function.Semiconj State.withoutScratch body (fun s => (body s).withoutScratch)) (s : State) (st fb lcb : Block)
    (n : Nat) (r : BitVec 4) (j : Nat) :
    (body^[j] ((s.withWork st fb lcb n r).loadIv o)).mem = (body^[j] (s.loadIv o)).mem ∧
      (body^[j] ((s.withWork st fb lcb n r).loadIv o)).rk = (body^[j] (s.loadIv o)).rk := by
  have hload : ((s.withWork st fb lcb n r).loadIv o).withoutScratch = (s.loadIv o).withoutScratch := rfl
  have hloop := State.withoutScratch_iterate hbody hload j
  exact ⟨(congrArg State.mem hloop :), (congrArg State.rk hloop :)⟩

/-- A command leaves one memory and one store, whatever the working registers held before (R25, R36). -/
theorem exec_withWork {i : Instr} {s t t' : State} {st fb lcb : Block} {n : Nat} {r : BitVec 4} (h : exec i s = .next t)
    (h' : exec i (s.withWork st fb lcb n r) = .next t') (hstatus : t'.status = t.status) :
    t'.mem = t.mem ∧ t'.rk = t.rk := by
  rcases exec_cases h with ⟨e, -, rfl⟩ | ⟨rfl, hlaunch, rfl⟩ | ⟨rfl, hlaunch, rfl⟩ | ⟨rfl, hlaunch, rfl⟩ | ⟨rfl, rfl⟩
  · have herr : t'.err = true := by
      rw [State.err, hstatus]
      exact s.failed_err e
    obtain ⟨e', rfl⟩ := exec_eq_failed h' herr
    exact ⟨rfl, rfl⟩
  · obtain rfl := Host.Outcome.next.inj ((execKeyload_of_launch (s := s.withWork st fb lcb n r) hlaunch).symm.trans h')
    simp only [State.complete_mem, State.forgetRound_mem, State.storeSchedule_mem, State.memRead_snd_mem, State.complete_rk,
      State.forgetRound_rk, State.storeSchedule_rk]
    exact ⟨rfl, rfl⟩
  · obtain rfl := Host.Outcome.next.inj ((execEncrypt_of_launch (s := s.withWork st fb lcb n r) hlaunch).symm.trans h')
    simp only [State.complete_mem, State.forgetWork_mem, State.complete_rk, State.forgetWork_rk]
    exact State.iterate_withWork (State.withoutScratch_encryptStep _) s st fb lcb n r _
  · obtain rfl := Host.Outcome.next.inj ((execDecrypt_of_launch (s := s.withWork st fb lcb n r) hlaunch).symm.trans h')
    simp only [State.complete_mem, State.forgetLcb_mem, State.forgetWork_mem, State.complete_rk, State.forgetLcb_rk,
      State.forgetWork_rk]
    exact State.iterate_withWork (State.withoutScratch_decryptStep _) s st fb lcb n r _
  · obtain rfl := Host.Outcome.next.inj ((execKeydiscard_eq _).symm.trans h')
    simp only [State.complete_mem, State.forgetStore_mem, State.dropKey_mem, State.complete_rk, State.forgetStore_rk,
      State.dropKey_freeCount]
    exact ⟨rfl, rfl⟩

/-- Settles O46: a command's path and accesses do not depend on the working registers, nor do the memory and the store it leaves
(R25, R36). -/
theorem commandsIgnoreTheOldWorkingRegisters : Obligations.CommandsIgnoreTheOldWorkingRegisters := by
  intro s t i st fb lcb n r h
  obtain ⟨t', h', hacc, hstatus, herr, hkey⟩ :=
    controlFlowIgnoresData s (s.withWork st fb lcb n r) t i rfl rfl rfl rfl rfl rfl h
  obtain ⟨hmem, hrk⟩ := exec_withWork h h' hstatus
  exact ⟨t', h', hmem, hrk, hkey, hstatus, herr, hacc⟩

end Sys2Proof.Machine
